-- ==== Sys2Proof/Word.lean ====
section
/-! DEFINITION. The bit vectors of the machine: words, bytes, arguments and opcodes (00_scope.md R4 to R6).

The two readings of R6 are `BitVec.toNat` (the spec's `u`) and `BitVec.toInt` (the spec's `s`). -/

namespace Sys2Proof

/-- A Word: the contents of a Memory cell, of AC, of PC and of a program word (R4 `WORD_BITS`, `PC_BITS`). -/
abbrev Word := BitVec 16

/-- One byte of a stream (R17, R18). -/
abbrev Byte := BitVec 8

/-- The 12-bit argument field of an instruction (R4 `ARG_BITS`, R51). -/
abbrev Arg := BitVec 12

/-- The 4-bit opcode field of an instruction (R4 `OPCODE_BITS`, R51). -/
abbrev Opcode := BitVec 4

end Sys2Proof
end

