-- ==== Sys2Proof/Config.lean ====
section
/-! DEFINITION. What is fixed for the machine (00_scope.md R4) and the values the spec leaves open. -/

namespace Sys2Proof.Config

/-- `MEM_WORDS`, the number of cells of Memory (R4). -/
abbrev memWords : Nat := 4096

/-- The largest `L`, the number of words of the program store (R4, decision D5). -/
abbrev maxProgramLength : Nat := 65535

/-- FREE VALUE: the bytes of each unknown endless input source, by the source's number and the position counted from the end
of the listed bytes (R17: `IN` may be infinite).  DESIGN CHOICE, log 6. -/
opaque endlessInput : Nat → Nat → Byte

/-- FREE VALUE: whether a failed INPUT consumed the one byte that was left (R17, decision D13).  DESIGN CHOICE, log 8. -/
opaque failedInputConsumes : Nat → Bool

/-- FREE VALUE: whether a failed OUTPUT emitted its first byte (R18, decision D13).  DESIGN CHOICE, log 8. -/
opaque failedOutputEmits : Nat → Bool

end Sys2Proof.Config
end

