-- ==== Sys2Proof/Syntax.lean ====
section
/-! DEFINITION. The instructions of the machine (30_encoding.md R53) and the eighteen operation tags (R60). -/

namespace Sys2Proof

/-- The instructions, one constructor per row of the opcode map (R53).  The argument is kept where it is unused (R55), so
that an instruction determines its word (log 15). -/
inductive Instr where
  /-- 0x0: store PC in `Memory[arg]` and jump to `arg` (R113). -/
  | jns (arg : Arg)
  /-- 0x1: `AC = Memory[arg]` (R90). -/
  | load (arg : Arg)
  /-- 0x2: `Memory[arg] = AC` (R91). -/
  | store (arg : Arg)
  /-- 0x3: `AC = AC + Memory[arg]` (R100). -/
  | add (arg : Arg)
  /-- 0x4: `AC = AC - Memory[arg]` (R101). -/
  | sub (arg : Arg)
  /-- 0x5: two input bytes into AC; `arg` unused (R120). -/
  | input (arg : Arg)
  /-- 0x6: two output bytes from AC; `arg` unused (R121). -/
  | output (arg : Arg)
  /-- 0x7: end the run; `arg` unused (R122). -/
  | halt (arg : Arg)
  /-- 0x8: skip the next instruction when AC meets the condition `arg` (R110). -/
  | skipcond (arg : Arg)
  /-- 0x9: `AC = 0`; `arg` unused (R103). -/
  | clear (arg : Arg)
  /-- 0xA: jump to `arg` (R111). -/
  | jump (arg : Arg)
  /-- 0xB: `AC = AC + Memory[arg]`, the same as ADD (R102). -/
  | addi (arg : Arg)
  /-- 0xC: jump to `Memory[arg]` (R112). -/
  | jumpi (arg : Arg)
  /-- 0xD: `AC = Memory[Memory[arg]]` (R92). -/
  | loadi (arg : Arg)
  /-- 0xE: `Memory[Memory[arg]] = AC` (R93). -/
  | storei (arg : Arg)
  deriving DecidableEq, Repr

/-- The eighteen names of the source's operation table (R60): the fifteen of R53 and the three without an encoding (R57). -/
inductive Tag where
  | jns | load | store | add | sub | input | output | halt | skipcond | clear | jump | addi | jumpi | loadi | storei
  | dec | hex | nop
  deriving DecidableEq, Repr

/-- An operation written down by its name and a number, as a listing writes it (R61), before any check. -/
structure Listing where
  tag : Tag
  arg : Nat
  deriving DecidableEq, Repr

end Sys2Proof
end

