-- ==== Sys2Proof/WellFormed.lean ====
section
/-! DEFINITION. What is checked before a thing enters the machine: a listing, a program, a Memory image.

An `Instr` needs no check: its argument is 12 bits by type, and every opcode with every argument is legal (R55, R58). -/

namespace Sys2Proof

/-- DEC, HEX and NOP have no encoding (R57). -/
def Tag.encodable : Tag → Bool
  | .dec | .hex | .nop => false
  | .jns | .load | .store | .add | .sub | .input | .output | .halt | .skipcond | .clear | .jump | .addi | .jumpi
  | .loadi | .storei => true

/-- A listing is an instruction when its tag has an encoding (R57) and its argument fits in 12 bits (R51). -/
def Listing.wellFormed (l : Listing) : Bool :=
  l.tag.encodable && decide (l.arg < 4096)

/-- A program has at most 65535 words (R4 `L`, decision D5). -/
def programWellFormed (prog : List Word) : Bool :=
  decide (prog.length ≤ Config.maxProgramLength)

/-- A Memory image has exactly 4096 words (R4 `MEM_INIT`). -/
def imageWellFormed (image : List Word) : Bool :=
  decide (image.length = Config.memWords)

end Sys2Proof
end

