-- ==== Sys2Proof/Decode.lean ====
section
/-! DEFINITION. The decoder, total on 16-bit words (30_encoding.md R50 to R56), and the encoder beside it. -/

namespace Sys2Proof

/-- Why a word is no instruction. -/
inductive DecodeError where
  /-- Bits 15:12 are 0xF, the one unmapped opcode (R56); the step turns this into the UnknownOpcode fault (R142). -/
  | unknownOpcode (opcode : Opcode)
  deriving DecidableEq, Repr

/-- `word[15:12]` (R51). -/
def opcodeField (w : Word) : Opcode := w.extractLsb' 12 4

/-- `word[11:0]` (R51). -/
def argField (w : Word) : Arg := w.extractLsb' 0 12

/-- The instruction an opcode selects (R53). -/
def instrOf (opcode : Opcode) (arg : Arg) : Except DecodeError Instr :=
  match opcode with
  | 0x0#4 => .ok (.jns arg)
  | 0x1#4 => .ok (.load arg)
  | 0x2#4 => .ok (.store arg)
  | 0x3#4 => .ok (.add arg)
  | 0x4#4 => .ok (.sub arg)
  | 0x5#4 => .ok (.input arg)
  | 0x6#4 => .ok (.output arg)
  | 0x7#4 => .ok (.halt arg)
  | 0x8#4 => .ok (.skipcond arg)
  | 0x9#4 => .ok (.clear arg)
  | 0xA#4 => .ok (.jump arg)
  | 0xB#4 => .ok (.addi arg)
  | 0xC#4 => .ok (.jumpi arg)
  | 0xD#4 => .ok (.loadi arg)
  | 0xE#4 => .ok (.storei arg)
  | op => .error (.unknownOpcode op)

/-- The decode function (R52). -/
def decode (w : Word) : Except DecodeError Instr :=
  instrOf (opcodeField w) (argField w)

/-- The instruction read from a table row's bits: an instruction is one 16-bit word (R50), so a row of more bits is none;
bits above `nbits` are 0.  The word is the number itself: a program word has no byte order (R36, log 17). -/
def decodeTableWord (nbits w : Nat) : Option Instr :=
  if nbits ≤ 16 then (decode (BitVec.ofNat 16 (w % 2 ^ nbits))).toOption else none

/-- The opcode of an instruction (R53). -/
def Instr.opcode : Instr → Opcode
  | .jns _ => 0x0#4
  | .load _ => 0x1#4
  | .store _ => 0x2#4
  | .add _ => 0x3#4
  | .sub _ => 0x4#4
  | .input _ => 0x5#4
  | .output _ => 0x6#4
  | .halt _ => 0x7#4
  | .skipcond _ => 0x8#4
  | .clear _ => 0x9#4
  | .jump _ => 0xA#4
  | .addi _ => 0xB#4
  | .jumpi _ => 0xC#4
  | .loadi _ => 0xD#4
  | .storei _ => 0xE#4

/-- The argument field of an instruction (R51, R54). -/
def Instr.arg : Instr → Arg
  | .jns a | .load a | .store a | .add a | .sub a | .input a | .output a | .halt a | .skipcond a | .clear a | .jump a
  | .addi a | .jumpi a | .loadi a | .storei a => a

/-- The tag of an instruction (R60). -/
def Instr.tag : Instr → Tag
  | .jns _ => .jns
  | .load _ => .load
  | .store _ => .store
  | .add _ => .add
  | .sub _ => .sub
  | .input _ => .input
  | .output _ => .output
  | .halt _ => .halt
  | .skipcond _ => .skipcond
  | .clear _ => .clear
  | .jump _ => .jump
  | .addi _ => .addi
  | .jumpi _ => .jumpi
  | .loadi _ => .loadi
  | .storei _ => .storei

/-- The word of an instruction, `opcode ++ arg` (R61). -/
def encode (i : Instr) : Word := i.opcode ++ i.arg

/-- The instruction a tag and an argument name, for the fifteen tags that have one (R53, R57). -/
def Tag.instr? : Tag → Arg → Option Instr
  | .jns, a => some (.jns a)
  | .load, a => some (.load a)
  | .store, a => some (.store a)
  | .add, a => some (.add a)
  | .sub, a => some (.sub a)
  | .input, a => some (.input a)
  | .output, a => some (.output a)
  | .halt, a => some (.halt a)
  | .skipcond, a => some (.skipcond a)
  | .clear, a => some (.clear a)
  | .jump, a => some (.jump a)
  | .addi, a => some (.addi a)
  | .jumpi, a => some (.jumpi a)
  | .loadi, a => some (.loadi a)
  | .storei, a => some (.storei a)
  | .dec, _ => none
  | .hex, _ => none
  | .nop, _ => none

/-- The word a listing stands for, when the listing is well formed (R61). -/
def Listing.word? (l : Listing) : Option Word :=
  if l.wellFormed then (l.tag.instr? (BitVec.ofNat 12 l.arg)).map encode else none

end Sys2Proof
end

