-- ==== Sys2Proof/Machine/State.lean ====
section
/-! DEFINITION. The state of the machine (10_state.md), the reasons a step can stop, and the state after reset. -/

namespace Sys2Proof.Machine

/-- Memory as plain data: `(address, word)` pairs.  A cell is a whole 16-bit word: there is no byte address and no byte
order (R16, R36; log 1).  An unlisted address reads as `Memory.unlisted` (Machine/Ops.lean). -/
abbrev Memory := List (Nat × Word)

/-- `status` (R19). -/
inductive Status where
  /-- The next step may be taken. -/
  | running
  /-- A HALT was executed (R122). -/
  | halted
  /-- The termination check found `u(PC) >= L` (R72). -/
  | ended
  /-- A fault occurred (R144). -/
  | faulted
  deriving DecidableEq, Repr

/-- The stream a StreamFault names (R143). -/
inductive Direction where
  | input
  | output
  deriving DecidableEq, Repr

/-- The content of `fault` (R20): the cause of a FAULTED status and its diagnostic. -/
inductive FaultRecord where
  /-- A memory access at 4096 or above, by LOADI or STOREI (R141). -/
  | addressOutOfRange (opcode : Opcode) (arg : Arg) (ptr : Word)
  /-- A fetched word whose opcode is 0xF (R142). -/
  | unknownOpcode (opcode : Opcode)
  /-- Fewer than two input bytes, or an output sink that refuses (R143). -/
  | streamFault (direction : Direction)
  deriving DecidableEq, Repr

/-- How the input byte source goes on after its listed bytes (R17: `IN` is finite or infinite; log 6). -/
inductive InTail where
  /-- It ends there: a finite `IN`. -/
  | ends
  /-- It goes round a list of bytes, `first` and then `rest`, for ever. -/
  | repeats (first : Byte) (rest : List Byte)
  /-- It goes on for ever with bytes of which nothing is known: the free values of the numbered source
  (`Config.endlessInput`).  Two runs may have two sources. -/
  | unknown (source : Nat)
  deriving DecidableEq, Repr

/-- The input byte source `IN` (R17): the listed bytes, and how it goes on after them (log 6). -/
structure InStream where
  bytes : List Byte
  tail : InTail
  deriving DecidableEq, Repr

/-- The state of the machine: the seven items of 10_state.md's table (R8, R10 to R20), the three parameters of the run that
a step reads (R15, R17, R18; log 5 to 7), and the model's own counter of free values drawn (log 8). -/
structure State where
  /-- `AC`, the accumulator (R10). -/
  ac : Word
  /-- `PC`, the program counter (R11). -/
  pc : Word
  /-- `Memory`, the data memory (R16). -/
  mem : Memory
  /-- `in_pos`, the number of input bytes consumed (R17). -/
  inPos : Nat
  /-- `out`, the bytes written so far (R18). -/
  out : List Byte
  /-- `status` (R19). -/
  status : Status
  /-- `fault` (R20). -/
  fault : Option FaultRecord
  /-- `PROG`, the program store; its length is `L` (R15).  No step changes it. -/
  prog : List Word
  /-- `IN` (R17).  No step changes it. -/
  input : InStream
  /-- `OUT_OK` (R18): the sink's answer to OUTPUT number 0, 1, ..., accept past the list.  No step changes it. -/
  outOk : List Bool
  /-- The MODEL's own: the number of free values drawn so far (log 8). -/
  draws : Nat
  deriving DecidableEq, Repr

/-- Why a step has no next state.  The machine's own three faults are no member: taking one is a next state (R144, log 4). -/
inductive Fault where
  /-- Raised by `step` alone, in a terminal status: no step is defined there, and the state is frozen until reset (R71).
  Safe (log 4). -/
  | noStepDefined (status : Status)
  deriving DecidableEq, Repr

/-- What the model refuses. -/
inductive Refusal where
  /-- An instruction without a meaning in this model, rejected by `exec`.  No arm of `exec` raises it: every instruction has
  its meaning.  Safe. -/
  | notModelled (mnemonic : String)
  /-- Raised by `State.launch`: a program of more than 65535 words is outside the range of `L` (R4).  Safe (log 11). -/
  | programTooLong (length : Nat)
  /-- Raised by `State.launch`: a Memory image that has not 4096 words (R4).  Safe (log 11). -/
  | memoryImageWrongLength (length : Nat)
  deriving DecidableEq, Repr

/-- What a step, or an instruction's meaning, answers. -/
abbrev Result := Host.Outcome State Fault Refusal

/-- The state right after reset (R22, R170), with `MEM_INIT` and `OUT_OK` at the defaults of 92_eei_decisions.md.  The spec
gives `PROG` and `IN` no default: that no program is loaded and that the input source is the empty finite one are the
model's own choices (DESIGN CHOICE, log 5 for `PROG`, log 18 for `IN`).  `State.launch` binds any others. -/
def State.reset : State where
  ac := 0x0000#16
  pc := 0x0000#16
  mem := []
  inPos := 0
  out := []
  status := .running
  fault := none
  prog := []
  input := { bytes := [], tail := .ends }
  outOk := []
  draws := 0

end Sys2Proof.Machine
end

