-- ==== Sys2Proof/Machine/Flags.lean ====
section
/-! DEFINITION. The machine has no flags (10_state.md R13); what stands in their place is the comparison of AC with zero
that SKIPCOND makes when it executes (43_skip_jump.md R110), and the wrapping arithmetic that records nothing (R104). -/

namespace Sys2Proof.Machine

/-- `a +_16 b` (R104): the low 16 bits of the exact sum; no carry or overflow is kept. -/
def addWord (a b : Word) : Word := BitVec.ofNat 16 (a.toNat + b.toNat)

/-- `a -_16 b` (R104): the low 16 bits of the exact difference; no borrow or overflow is kept. -/
def subWord (a b : Word) : Word := BitVec.ofNat 16 (a.toNat + 65536 - b.toNat)

/-- Whether SKIPCOND skips (R110): the selector is compared whole, AC is read as a signed Word. -/
def skipHolds (selector : Arg) (ac : Word) : Bool :=
  if selector = 0x000#12 then decide (ac.toInt < 0)
  else if selector = 0x400#12 then decide (ac.toInt = 0)
  else if selector = 0x800#12 then decide (0 < ac.toInt)
  else false

end Sys2Proof.Machine
end

