-- ==== Sys2Proof/Machine/Operands.lean ====
section
/-! DEFINITION. The operand forms (30_encoding.md R54, 20_memory.md R34) and the byte layout of the streams (R36). -/

namespace Sys2Proof.Machine

/-- A direct address, `zext_16(arg)` (R34 (a), R54). -/
def directAddr (arg : Arg) : Word := arg.setWidth 16

/-- A jump target taken from the argument, `zext_16(arg)` (R54, R111, R113). -/
def directTarget (arg : Arg) : Word := arg.setWidth 16

/-- An address is in range when its unsigned value is below 4096 (R31, R32, R34). -/
def inRange (addr : Word) : Bool := decide (addr.toNat < Config.memWords)

/-- The Word INPUT makes of two bytes: the first is bits 7:0, the second bits 15:8 (R120, R36). -/
def wordOfBytes (b0 b1 : Byte) : Word := b1 ++ b0

/-- Bits 7:0, the first byte OUTPUT hands over (R121). -/
def lowByte (w : Word) : Byte := w.extractLsb' 0 8

/-- Bits 15:8, the second byte OUTPUT hands over (R121). -/
def highByte (w : Word) : Byte := w.extractLsb' 8 8

end Sys2Proof.Machine
end

