-- ==== Sys2Proof/Machine/Ops.lean ====
section
/-! DEFINITION. The named operations over Memory, the registers, the streams and the run status, taking a fault among them. -/

namespace Sys2Proof.Machine

/-! ### The cells of Memory (R30) -/

/-- What an address that Memory does not list reads as: the default of `MEM_INIT` (R16, R22; log 2). -/
def Memory.unlisted : Word := 0x0000#16

/-- The Word at an address. -/
def Memory.read : Memory → Nat → Word
  | [], _ => Memory.unlisted
  | (b, w) :: rest, a => if a = b then w else Memory.read rest a

/-- The list without any entry for an address. -/
def Memory.erase : Memory → Nat → Memory
  | [], _ => []
  | (b, w) :: rest, a => if a = b then Memory.erase rest a else (b, w) :: Memory.erase rest a

/-- An entry put before the first entry of a higher address. -/
def Memory.insert : Memory → Nat → Word → Memory
  | [], a, v => [(a, v)]
  | (b, w) :: rest, a, v => if a < b then (a, v) :: (b, w) :: rest else (b, w) :: Memory.insert rest a v

/-- The Memory with one cell written: an entry equal to what an unlisted address reads as is not listed. -/
def Memory.write (m : Memory) (a : Nat) (v : Word) : Memory :=
  if v = Memory.unlisted then m.erase a else (m.erase a).insert a v

/-- The canonical form: addresses below 4096, strictly rising, no entry equal to what an unlisted address reads as. -/
def Memory.wf : Memory → Bool
  | [] => true
  | (a, v) :: rest =>
    decide (a < Config.memWords) && decide (v ≠ Memory.unlisted) && rest.all (fun c => decide (a < c.1)) && Memory.wf rest

/-- The Memory whose cells from address `a` on hold the words of a list, and whose other cells are unlisted (R16
`MEM_INIT`). -/
def Memory.imageFrom : Nat → List Word → Memory
  | _, [] => []
  | a, v :: rest =>
    if v = Memory.unlisted then Memory.imageFrom (a + 1) rest else (a, v) :: Memory.imageFrom (a + 1) rest

/-! ### Faults (60_exceptions.md R144) -/

/-- `raise F(info)` (R144): `status` and `fault` are set, nothing else changes; PC stays at the faulting instruction.  There
is no return from it (R147). -/
def raise (f : FaultRecord) (s : State) : State := { s with status := .faulted, fault := some f }

/-- The cause code of `fault` (R148); nothing in the machine reads it. -/
def causeCode : Option FaultRecord → Nat
  | none => 0
  | some (.addressOutOfRange _ _ _) => 1
  | some (.unknownOpcode _) => 2
  | some (.streamFault _) => 3

/-! ### Registers and the run status -/

/-- `AC <- v` (R10). -/
def setAc (v : Word) (s : State) : State := { s with ac := v }

/-- `pc <- target` (R76, R12). -/
def jumpTo (target : Word) (s : State) : State := { s with pc := target }

/-- The sequential advance, `PC +_16 1`, applied after the handler (R76, decision D1; log 9). -/
def advance (s : State) : State := jumpTo (addWord s.pc 0x0001#16) s

/-- A taken skip, `PC +_16 2` (R76, R110). -/
def skipNext (s : State) : State := jumpTo (addWord s.pc 0x0002#16) s

/-- `status <- HALTED`; PC is not updated (R122). -/
def haltRun (s : State) : State := { s with status := .halted }

/-- `status <- ENDED`; nothing else changes (R72). -/
def endRun (s : State) : State := { s with status := .ended }

/-! ### Memory accesses (R31, R32) -/

/-- One cell of Memory replaced. -/
def setCell (a : Nat) (v : Word) (s : State) : State := { s with mem := s.mem.write a v }

/-- `MemRead(addr, 16)` inside the instruction `opcode arg` (R31). -/
def memRead (opcode : Opcode) (arg : Arg) (addr : Word) (s : State) : Except FaultRecord Word :=
  if inRange addr then .ok (s.mem.read addr.toNat) else .error (.addressOutOfRange opcode arg addr)

/-- `MemWrite(addr, 16, v)` inside the instruction `opcode arg` (R32): out of range it writes nothing. -/
def memWrite (opcode : Opcode) (arg : Arg) (addr v : Word) (s : State) : Except FaultRecord State :=
  if inRange addr then .ok (setCell addr.toNat v s) else .error (.addressOutOfRange opcode arg addr)

/-! ### Operand access shared by the instructions -/

/-- Read the cell at `addr` and go on with it, or take the fault of the access (R31, R144). -/
def withOperand (opcode : Opcode) (arg : Arg) (addr : Word) (s : State) (k : Word → Result) : Result :=
  match memRead opcode arg addr s with
  | .ok v => k v
  | .error f => .next (raise f s)

/-- Write the cell at `addr` and go on from there, or take the fault of the access (R32, R144). -/
def withStore (opcode : Opcode) (arg : Arg) (addr v : Word) (s : State) (k : State → Result) : Result :=
  match memWrite opcode arg addr v s with
  | .ok t => k t
  | .error f => .next (raise f s)

/-- AC combined with the cell at the direct address `arg`, the result in AC, then the sequential advance (R100 to R102). -/
def accumulate (op : Word → Word → Word) (opcode : Opcode) (arg : Arg) (s : State) : Result :=
  withOperand opcode arg (directAddr arg) s fun m => .next (advance (setAc (op s.ac m) s))

/-! ### The streams (R17, R18) -/

/-- The byte a source has at a position counted from the end of its listed bytes (R17, log 6). -/
def InTail.byteAt? : InTail → Nat → Option Byte
  | .ends, _ => none
  | .repeats first rest, q => (first :: rest)[q % (rest.length + 1)]?
  | .unknown source, q => some (Config.endlessInput source q)

/-- The byte of `IN` at a position, when the source has one there (R17, log 6). -/
def InStream.byteAt? (i : InStream) (p : Nat) : Option Byte :=
  match i.bytes[p]? with
  | some b => some b
  | none => i.tail.byteAt? (p - i.bytes.length)

/-- Whether `IN` is infinite (R17). -/
def InStream.endless (i : InStream) : Bool :=
  match i.tail with
  | .ends => false
  | .repeats _ _ => true
  | .unknown _ => true

/-- The two bytes `InRead2()` returns, the first consumed first; none when fewer than two remain (R17). -/
def nextTwoBytes (s : State) : Option (Byte × Byte) :=
  match s.input.byteAt? s.inPos, s.input.byteAt? (s.inPos + 1) with
  | some b0, some b1 => some (b0, b1)
  | _, _ => none

/-- `in_pos <- in_pos + 2` (R17). -/
def consumeTwo (s : State) : State := { s with inPos := s.inPos + 2 }

/-- How many bytes a failed INPUT consumed: none when none was left, none or the one that was left otherwise, a free value
(R17, decision D13; log 8). -/
def failedInputCount (s : State) : Nat :=
  if (s.input.byteAt? s.inPos).isSome && Config.failedInputConsumes s.draws then 1 else 0

/-- `InRead2()` with fewer than two bytes left: StreamFault(input), `in_pos` as the free value says (R17, R143). -/
def failInput (s : State) : State :=
  raise (.streamFault .input) { s with inPos := s.inPos + failedInputCount s, draws := s.draws + 1 }

/-- `OUT_OK`: the sink's answer to the OUTPUT about to write (R18).  Each OUTPUT before it in the run wrote two bytes, so
half the length of `out` is its number; past the list the sink accepts, the default of `OUT_OK` (log 7). -/
def sinkAccepts (s : State) : Bool := s.outOk.getD (s.out.length / 2) true

/-- `out <- out ++ [b0, b1]` (R18). -/
def emitTwo (b0 b1 : Byte) (s : State) : State := { s with out := s.out ++ [b0, b1] }

/-- The bytes a failed OUTPUT emitted: none or the first, a free value (R18, decision D13; log 8). -/
def failedOutputBytes (b0 : Byte) (s : State) : List Byte :=
  if Config.failedOutputEmits s.draws then [b0] else []

/-- `OutWrite2(b0, b1)` refused by the sink: StreamFault(output), `out` as the free value says (R18, R143). -/
def failOutput (b0 : Byte) (s : State) : State :=
  raise (.streamFault .output) { s with out := s.out ++ failedOutputBytes b0 s, draws := s.draws + 1 }

/-! ### The program store (R15) -/

/-- The termination check and the fetch: `PROG[u(PC)]`, none exactly when `u(PC) >= L` (R72, R73). -/
def fetch (s : State) : Option Word := s.prog[s.pc.toNat]?

/-- A program with one word placed at an offset; a program that is shorter is filled up with 0x0000 (log 16). -/
def placeWord (prog : List Word) (offset : Nat) (w : Word) : List Word :=
  if offset < prog.length then prog.set offset w
  else prog ++ List.replicate (offset - prog.length) 0x0000#16 ++ [w]

end Sys2Proof.Machine
end

