-- ==== Sys2Proof/Machine/Arithmetic.lean ====
section
/-! DEFINITION. ADD, SUB, ADDI and CLEAR (42_arithmetic.md). -/

namespace Sys2Proof.Machine

/-- ADD (R100). -/
def execAdd (arg : Arg) (s : State) : Result := accumulate addWord 0x3#4 arg s

/-- SUB (R101): AC minus the cell. -/
def execSub (arg : Arg) (s : State) : Result := accumulate subWord 0x4#4 arg s

/-- ADDI (R102): a direct add from Memory, as ADD. -/
def execAddi (arg : Arg) (s : State) : Result := accumulate addWord 0xB#4 arg s

/-- CLEAR (R103); the argument is ignored (R55). -/
def execClear (_arg : Arg) (s : State) : Result := .next (advance (setAc 0x0000#16 s))

end Sys2Proof.Machine
end

