-- ==== Sys2Proof/Machine/Control.lean ====
section
/-! DEFINITION. SKIPCOND, JUMP, JUMPI and JNS (43_skip_jump.md). -/

namespace Sys2Proof.Machine

/-- SKIPCOND (R110). -/
def execSkipcond (selector : Arg) (s : State) : Result :=
  .next (if skipHolds selector s.ac then skipNext s else advance s)

/-- JUMP (R111). -/
def execJump (arg : Arg) (s : State) : Result := .next (jumpTo (directTarget arg) s)

/-- JUMPI (R112): the 16 bits of the cell as they stand, not compared with 4096. -/
def execJumpi (arg : Arg) (s : State) : Result :=
  withOperand 0xC#4 arg (directAddr arg) s fun t => .next (jumpTo t s)

/-- JNS (R113): the offset stored is that of the JNS itself. -/
def execJns (arg : Arg) (s : State) : Result :=
  withStore 0x0#4 arg (directAddr arg) s.pc s fun t => .next (jumpTo (directTarget arg) t)

end Sys2Proof.Machine
end

