-- ==== Sys2Proof/Machine/LoadStore.lean ====
section
/-! DEFINITION. LOAD, STORE, LOADI and STOREI (41_load_store.md). -/

namespace Sys2Proof.Machine

/-- LOAD (R90). -/
def execLoad (arg : Arg) (s : State) : Result :=
  withOperand 0x1#4 arg (directAddr arg) s fun v => .next (advance (setAc v s))

/-- STORE (R91). -/
def execStore (arg : Arg) (s : State) : Result :=
  withStore 0x2#4 arg (directAddr arg) s.ac s fun t => .next (advance t)

/-- LOADI (R92): the pointer is used with all 16 bits. -/
def execLoadi (arg : Arg) (s : State) : Result :=
  withOperand 0xD#4 arg (directAddr arg) s fun ptr =>
    withOperand 0xD#4 arg ptr s fun v => .next (advance (setAc v s))

/-- STOREI (R93): the pointer is used with all 16 bits. -/
def execStorei (arg : Arg) (s : State) : Result :=
  withOperand 0xE#4 arg (directAddr arg) s fun ptr =>
    withStore 0xE#4 arg ptr s.ac s fun t => .next (advance t)

end Sys2Proof.Machine
end

