-- ==== Sys2Proof/Machine/Streams.lean ====
section
/-! DEFINITION. INPUT, OUTPUT and HALT (44_io_halt.md). -/

namespace Sys2Proof.Machine

/-- INPUT (R120); the argument is ignored (R55). -/
def execInput (_arg : Arg) (s : State) : Result :=
  match nextTwoBytes s with
  | some (b0, b1) => .next (advance (setAc (wordOfBytes b0 b1) (consumeTwo s)))
  | none => .next (failInput s)

/-- OUTPUT (R121); the argument is ignored (R55). -/
def execOutput (_arg : Arg) (s : State) : Result :=
  if sinkAccepts s then .next (advance (emitTwo (lowByte s.ac) (highByte s.ac) s))
  else .next (failOutput (lowByte s.ac) s)

/-- HALT (R122); the argument is ignored (R55). -/
def execHalt (_arg : Arg) (s : State) : Result := .next (haltRun s)

end Sys2Proof.Machine
end

