-- ==== Sys2Proof/Machine/Dispatch.lean ====
section
/-! DEFINITION. The dispatch: each instruction to its meaning (40_step_cycle.md R75). -/

namespace Sys2Proof.Machine

/-- One handler per instruction (R75).  The status is the step's concern (R70, log 14). -/
def exec (i : Instr) (s : State) : Host.Outcome State Fault Refusal :=
  match i with
  | .jns arg => Sys2Proof.Machine.execJns arg s
  | .load arg => Sys2Proof.Machine.execLoad arg s
  | .store arg => Sys2Proof.Machine.execStore arg s
  | .add arg => Sys2Proof.Machine.execAdd arg s
  | .sub arg => Sys2Proof.Machine.execSub arg s
  | .input arg => Sys2Proof.Machine.execInput arg s
  | .output arg => Sys2Proof.Machine.execOutput arg s
  | .halt arg => Sys2Proof.Machine.execHalt arg s
  | .skipcond arg => Sys2Proof.Machine.execSkipcond arg s
  | .clear arg => Sys2Proof.Machine.execClear arg s
  | .jump arg => Sys2Proof.Machine.execJump arg s
  | .addi arg => Sys2Proof.Machine.execAddi arg s
  | .jumpi arg => Sys2Proof.Machine.execJumpi arg s
  | .loadi arg => Sys2Proof.Machine.execLoadi arg s
  | .storei arg => Sys2Proof.Machine.execStorei arg s

end Sys2Proof.Machine
end

