-- ==== Sys2Proof/Machine/Cycle.lean ====
section
/-! DEFINITION. One fetch-decode-execute cycle of a running machine (40_step_cycle.md R70 to R76), and the dispatch over the
eighteen tags with the handlers of the three that have no encoding (45_reserved_tags.md). -/

namespace Sys2Proof.Machine

/-- Decode a fetched word and run it; opcode 0xF raises UnknownOpcode and no handler runs (R74, R75, R142). -/
def runWord (w : Word) (s : State) : Result :=
  match decode w with
  | .ok i => exec i s
  | .error (.unknownOpcode op) => .next (raise (.unknownOpcode op) s)

/-- The cycle of a machine whose status is RUNNING: the termination check, the fetch, the decode, the handler (R70, R72). -/
def runCycle (s : State) : Result :=
  match fetch s with
  | none => .next (endRun s)
  | some w => runWord w s

/-- NOP's handler (R131); no word reaches it (R130). -/
def execNop (s : State) : Result := .next (advance s)

/-- DEC's handler (R132); no word reaches it (R130). -/
def execDec (s : State) : Result := .next (advance s)

/-- HEX's handler (R133); no word reaches it (R130). -/
def execHex (s : State) : Result := .next (advance s)

/-- The handler of each of the eighteen tags (R60, R75, R131 to R133). -/
def execTag (t : Tag) (arg : Arg) (s : State) : Result :=
  match t with
  | .jns => exec (.jns arg) s
  | .load => exec (.load arg) s
  | .store => exec (.store arg) s
  | .add => exec (.add arg) s
  | .sub => exec (.sub arg) s
  | .input => exec (.input arg) s
  | .output => exec (.output arg) s
  | .halt => exec (.halt arg) s
  | .skipcond => exec (.skipcond arg) s
  | .clear => exec (.clear arg) s
  | .jump => exec (.jump arg) s
  | .addi => exec (.addi arg) s
  | .jumpi => exec (.jumpi arg) s
  | .loadi => exec (.loadi arg) s
  | .storei => exec (.storei arg) s
  | .dec => execDec s
  | .hex => execHex s
  | .nop => execNop s

end Sys2Proof.Machine
end

