-- ==== Sys2Proof/Machine/Step.lean ====
section
/-! DEFINITION. The step, the only transition of the machine (40_step_cycle.md R70, R71). -/

namespace Sys2Proof.Machine

/-- One step: defined when `status` is RUNNING (R70); in a terminal status no step is defined (R71, log 4). -/
def step (s : State) : Host.Outcome State Fault Refusal :=
  match s.status with
  | .running => runCycle s
  | .halted => .fault (.noStepDefined .halted)
  | .ended => .fault (.noStepDefined .ended)
  | .faulted => .fault (.noStepDefined .faulted)

/-- The state with an instruction word placed where the next step fetches: the program store at PC, the machine running
(log 5, log 16).  It stands for the external loader of R15; bits above `nbits` are zero. -/
def State.withFetchWord (s : State) (nbits w : Nat) : State :=
  { s with
    prog := placeWord s.prog s.pc.toNat (BitVec.ofNat 16 (w % 2 ^ nbits))
    status := .running
    fault := none }

end Sys2Proof.Machine
end

