-- ==== Sys2Proof/Machine/Launch.lean ====
section
/-! DEFINITION. Reset with the parameters of a run (70_reset_and_hazards.md R170 to R172) and the run itself (R78). -/

namespace Sys2Proof.Machine

/-- What the environment supplies at reset (R172); no Memory image means Memory is all zero. -/
structure Parameters where
  /-- `PROG`, and with it `L`. -/
  prog : List Word
  /-- `MEM_INIT`. -/
  memInit : Option (List Word)
  /-- `IN`. -/
  input : InStream
  /-- `OUT_OK`. -/
  outOk : List Bool
  /-- The MODEL's own: where the run's free values start, so that two runs need not draw the same ones (log 8). -/
  draws : Nat
  deriving DecidableEq, Repr

/-- Reset (R170): the parameters are bound, every piece of state takes its reset value; parameters outside their ranges
(R4) are refused (log 11). -/
def State.launch (p : Parameters) : Result :=
  if programWellFormed p.prog then
    match p.memInit with
    | none => .next { State.reset with prog := p.prog, input := p.input, outOk := p.outOk, draws := p.draws }
    | some image =>
      if imageWellFormed image then
        .next { State.reset with
          prog := p.prog, mem := Memory.imageFrom 0 image, input := p.input, outOk := p.outOk,
          draws := p.draws }
      else .refused (.memoryImageWrongLength image.length)
  else .refused (.programTooLong p.prog.length)

end Sys2Proof.Machine
end

