-- ==== Sys2Proof/Safety.lean ====
section
/-! DEFINITION. What counts as a consistent state and as a run that ends well, in the terms the statements use. -/

namespace Sys2Proof.Machine

/-- The word at PC and the state around it account for a fault record (R141 to R144): PC stands at the faulting instruction,
and the cause named by the record is still there to see. -/
def FaultExplained (s : State) : FaultRecord → Prop
  | .addressOutOfRange opcode arg ptr =>
    (opcode = 0xD#4 ∨ opcode = 0xE#4) ∧ fetch s = some (opcode ++ arg) ∧ s.mem.read (directAddr arg).toNat = ptr ∧
      4096 ≤ ptr.toNat
  | .unknownOpcode opcode => opcode = 0xF#4 ∧ ∃ arg : Arg, fetch s = some (opcode ++ arg)
  | .streamFault .input => (∃ arg : Arg, fetch s = some (0x5#4 ++ arg)) ∧ s.input.byteAt? (s.inPos + 1) = none
  | .streamFault .output => ∃ arg : Arg, fetch s = some (0x6#4 ++ arg)

/-- The invariant of the machine: what every state of a run meets, and every step keeps. -/
structure Inv (s : State) : Prop where
  /-- Memory keeps its canonical form, its addresses in 0 to 4095 (R16). -/
  memory : s.mem.wf = true
  /-- `L` is at most 65535 (R4). -/
  program : s.prog.length ≤ 65535
  /-- `status = FAULTED` exactly when `fault` is not none (R20). -/
  faulted : s.status = .faulted ↔ s.fault ≠ none
  /-- The fault record names what happened at PC (R141 to R144). -/
  explained : ∀ f, s.fault = some f → FaultExplained s f
  /-- A halted machine stands at a HALT (R122). -/
  halted : s.status = .halted → ∃ arg : Arg, fetch s = some (0x7#4 ++ arg)
  /-- An ended machine stands at or beyond the end of the program (R72). -/
  ended : s.status = .ended → s.prog.length ≤ s.pc.toNat
  /-- No more bytes are consumed than a finite source has (R17). -/
  input : s.input.endless = false → s.inPos ≤ s.input.bytes.length
  /-- Every completed OUTPUT wrote two bytes (R18). -/
  output : s.status ≠ .faulted → s.out.length % 2 = 0

/-- The two successful ends of a run (R19, R78). -/
def EndedWell (s : State) : Prop := s.status = .halted ∨ s.status = .ended

/-- `k` steps from `s` lead to `t` (R78). -/
def Reaches : Nat → State → State → Prop
  | 0, s, t => t = s
  | k + 1, s, t => ∃ u, step s = .next u ∧ Reaches k u t

end Sys2Proof.Machine
end

