-- ==== Sys2Proof/Certificates/Slice0/Obligations.lean ====
section
/-! DEFINITION. The statements for the provers, each named after what it states; OBLIGATIONS.json lists them. -/

open Sys2Proof Sys2Proof.Machine

/-- The worked encodings 0x0010, 0x1001, 0x2FFF, 0x3003, 0x4004, 0x5000, 0x6000, 0x7000, 0x8400, 0x9000, 0xA009,
0xB040, 0xC010, 0xD031 and 0xE033 decode to JNS 010, LOAD 001, STORE FFF, ADD 003, SUB 004, INPUT, OUTPUT, HALT,
SKIPCOND 400, CLEAR, JUMP 009, ADDI 040, JUMPI 010, LOADI 031 and STOREI 033, and 0xF123 is the unknown opcode.
(30_encoding.md section 5) -/
def Obligations.SampleWordsDecode : Prop :=
  decode 0x0010#16 = .ok (.jns 0x010#12) ∧ decode 0x1001#16 = .ok (.load 0x001#12) ∧
  decode 0x2FFF#16 = .ok (.store 0xFFF#12) ∧ decode 0x3003#16 = .ok (.add 0x003#12) ∧
  decode 0x4004#16 = .ok (.sub 0x004#12) ∧ decode 0x5000#16 = .ok (.input 0x000#12) ∧
  decode 0x6000#16 = .ok (.output 0x000#12) ∧ decode 0x7000#16 = .ok (.halt 0x000#12) ∧
  decode 0x8400#16 = .ok (.skipcond 0x400#12) ∧ decode 0x9000#16 = .ok (.clear 0x000#12) ∧
  decode 0xA009#16 = .ok (.jump 0x009#12) ∧ decode 0xB040#16 = .ok (.addi 0x040#12) ∧
  decode 0xC010#16 = .ok (.jumpi 0x010#12) ∧ decode 0xD031#16 = .ok (.loadi 0x031#12) ∧
  decode 0xE033#16 = .ok (.storei 0x033#12) ∧ decode 0xF123#16 = .error (.unknownOpcode 0xF#4)

/-- For every 16-bit word, the opcode field is (word >> 12) & 0xF and the argument field is word & 0x0FFF, and a
word that decodes to an instruction decodes to one with exactly that opcode and that argument. (R51) -/
def Obligations.DecodeSplitsWord : Prop :=
  ∀ w : Word,
    (opcodeField w).setWidth 16 = (w >>> 12) &&& 0x000F#16 ∧ (argField w).setWidth 16 = w &&& 0x0FFF#16 ∧
    ∀ i, decode w = .ok i → i.opcode = opcodeField w ∧ i.arg = argField w

/-- For every 12-bit argument, the word match | arg of each row of the opcode map decodes to that row's instruction
with that argument, for the fifteen opcodes 0x0 to 0xE, and the word 0xF000 | arg decodes to no instruction.
(R53) -/
def Obligations.OpcodeMapSelectsInstruction : Prop :=
  ∀ arg : Arg,
    decode (0x0000#16 ||| arg.setWidth 16) = .ok (.jns arg) ∧ decode (0x1000#16 ||| arg.setWidth 16) = .ok (.load arg) ∧
    decode (0x2000#16 ||| arg.setWidth 16) = .ok (.store arg) ∧ decode (0x3000#16 ||| arg.setWidth 16) = .ok (.add arg) ∧
    decode (0x4000#16 ||| arg.setWidth 16) = .ok (.sub arg) ∧ decode (0x5000#16 ||| arg.setWidth 16) = .ok (.input arg) ∧
    decode (0x6000#16 ||| arg.setWidth 16) = .ok (.output arg) ∧ decode (0x7000#16 ||| arg.setWidth 16) = .ok (.halt arg) ∧
    decode (0x8000#16 ||| arg.setWidth 16) = .ok (.skipcond arg) ∧ decode (0x9000#16 ||| arg.setWidth 16) = .ok (.clear arg) ∧
    decode (0xA000#16 ||| arg.setWidth 16) = .ok (.jump arg) ∧ decode (0xB000#16 ||| arg.setWidth 16) = .ok (.addi arg) ∧
    decode (0xC000#16 ||| arg.setWidth 16) = .ok (.jumpi arg) ∧ decode (0xD000#16 ||| arg.setWidth 16) = .ok (.loadi arg) ∧
    decode (0xE000#16 ||| arg.setWidth 16) = .ok (.storei arg) ∧
    decode (0xF000#16 ||| arg.setWidth 16) = .error (.unknownOpcode 0xF#4)

/-- For every instruction with every argument, decode (encode i) is i: no bit of an encoding is dropped. (An Instr
needs no well-formedness check: its argument is 12 bits by type.) (30_encoding.md sections 1, 2 and 4) -/
def Obligations.DecodeOfEncodeIsInstruction : Prop :=
  ∀ i : Instr, decode (encode i) = .ok i

/-- Whenever a 16-bit word decodes to an instruction, the encoder gives that word for it, all 16 bits: each legal
word has one meaning and each instruction one word. (30_encoding.md sections 1, 2 and 4) -/
def Obligations.EncodeOfDecodeIsWord : Prop :=
  ∀ (w : Word) (i : Instr), decode w = .ok i → encode i = w

/-- A word decodes to the unknown-opcode error exactly when its unsigned value is 0xF000 or more, every other word
decodes to an instruction, and a step of a running machine that fetches such a word sets status to FAULTED and
fault to UnknownOpcode(0xF) and changes nothing else. (R56, R142) -/
def Obligations.UnknownOpcodeExactlyAboveF000 : Prop :=
  (∀ w : Word, decode w = .error (.unknownOpcode 0xF#4) ↔ 0xF000 ≤ w.toNat) ∧
  (∀ w : Word, w.toNat < 0xF000 → ∃ i, decode w = .ok i) ∧
  (∀ (s : State) (w : Word), s.status = .running → fetch s = some w → 0xF000 ≤ w.toNat →
    step s = .next { s with status := .faulted, fault := some (.unknownOpcode 0xF#4) })

/-- No 16-bit word decodes to an instruction whose tag is DEC, HEX or NOP, no listing of one of the three has a
word, and their handlers, if dispatched, change nothing but PC, which advances by one. The handlers are the
spec's decision D11; keeping the three tags is the model's choice of log entry 10. (45_reserved_tags.md,
92_eei_decisions.md D11) -/
def Obligations.ReservedTagsUnreachableNoOps : Prop :=
  (∀ (w : Word) (i : Instr), decode w = .ok i → i.tag ≠ .dec ∧ i.tag ≠ .hex ∧ i.tag ≠ .nop) ∧
  (∀ n, Listing.word? ⟨.dec, n⟩ = none ∧ Listing.word? ⟨.hex, n⟩ = none ∧ Listing.word? ⟨.nop, n⟩ = none) ∧
  (∀ (arg : Arg) (s : State),
    execTag .dec arg s = .next { s with pc := s.pc + 1#16 } ∧ execTag .hex arg s = .next { s with pc := s.pc + 1#16 } ∧
    execTag .nop arg s = .next { s with pc := s.pc + 1#16 })

/-- When status is RUNNING and the program store holds at offset u(PC) a word that decodes to instruction i, step is
exec i at that very state: nothing is added around exec (the advance of PC is part of each instruction's
meaning). (40_step_cycle.md section 1) -/
def Obligations.StepRunsDecodedInstruction : Prop :=
  ∀ (s : State) (w : Word) (i : Instr),
    s.status = .running → s.prog[s.pc.toNat]? = some w → decode w = .ok i → step s = exec i s

/-- For every state and every number whose 16-bit table word decodes to i, the step of the state with that word
placed at the fetch is exec i at that state. How a program is loaded is the model's choice of log entries 5 and
16. (10_state.md section 3, notes/assumptions/5.md) -/
def Obligations.PlacedWordIsNextInstruction : Prop :=
  ∀ (s : State) (w : Nat) (i : Instr),
    decodeTableWord 16 w = some i → step (s.withFetchWord 16 w) = exec i (s.withFetchWord 16 w)

/-- When status is RUNNING and u(PC) >= L, the step sets status to ENDED and changes nothing else, whatever the
program, L = 0 included (the spec's decision D25, log 9). (R72) -/
def Obligations.EndOfProgramEndsRun : Prop :=
  ∀ s : State, s.status = .running → s.prog.length ≤ s.pc.toNat → step s = .next { s with status := .ended }

/-- When status is HALTED, ENDED or FAULTED, step answers the named stop noStepDefined with that status, and no
number of steps leads to another state. That the undefined step is a named stop of the model is the choice of
log entry 4; that no step is defined and the state is frozen is the spec's decision D22. (40_step_cycle.md
section 1, 92_eei_decisions.md D22) -/
def Obligations.TerminalStatusHasNoStep : Prop :=
  ∀ s : State, s.status ≠ .running →
    step s = .fault (.noStepDefined s.status) ∧ ∀ (k : Nat) (t : State), Reaches k s t → t = s

/-- From every state whose status is RUNNING the step has a next state t; either u(PC) >= L and t is s with status
ENDED, or PC points at a word of the program store and t is what the decoded instruction answers, or that word's
opcode is 0xF and t is s with the UnknownOpcode fault. (40_step_cycle.md section 1, 60_exceptions.md section 2) -/
def Obligations.StepEndsOrRunsOneInstruction : Prop :=
  ∀ s : State, s.status = .running → ∃ t, step s = .next t ∧
    ((s.prog.length ≤ s.pc.toNat ∧ t = { s with status := .ended }) ∨
     (∃ w i, s.prog[s.pc.toNat]? = some w ∧ decode w = .ok i ∧ exec i s = .next t) ∨
     (∃ w, s.prog[s.pc.toNat]? = some w ∧ opcodeField w = 0xF#4 ∧
       t = { s with status := .faulted, fault := some (.unknownOpcode 0xF#4) }))

/-- For every instruction with every argument and every state, exec answers a next state: a fault of the machine is
taken as a next state with status FAULTED, and nothing is refused. (40_step_cycle.md section 1, 60_exceptions.md
sections 1 and 2) -/
def Obligations.EveryInstructionAnswersNextState : Prop :=
  ∀ (i : Instr) (s : State), ∃ t, exec i s = .next t

/-- From a running state, an instruction that leaves the machine running sets PC to zext(arg) for JNS and JUMP, to
the 16 bits of Memory[arg] for JUMPI, to PC + 2 for a SKIPCOND whose condition holds and to PC + 1 (modulo
65536) for every other one; an instruction that halts or faults leaves PC at its own offset. The sequential
advance is the spec's decision D1, followed as log entry 9 says. (40_step_cycle.md section 1,
92_eei_decisions.md D1) -/
def Obligations.NextPcTable : Prop :=
  ∀ (i : Instr) (s t : State), s.status = .running → exec i s = .next t →
    (t.status ≠ .running → t.pc = s.pc) ∧
    (t.status = .running → t.pc =
      match i with
      | .jns arg | .jump arg => arg.setWidth 16
      | .jumpi arg => s.mem.read (directAddr arg).toNat
      | .skipcond selector =>
        if (selector = 0x000#12 ∧ s.ac.toInt < 0) ∨ (selector = 0x400#12 ∧ s.ac.toInt = 0) ∨
            (selector = 0x800#12 ∧ 0 < s.ac.toInt)
        then s.pc + 2#16 else s.pc + 1#16
      | .load _ | .store _ | .add _ | .sub _ | .input _ | .output _ | .halt _ | .clear _ | .addi _ | .loadi _
      | .storei _ => s.pc + 1#16)

/-- Inside the instruction (opcode, arg), a read at a 16-bit address whose unsigned value is 4096 or more is the
fault AddressOutOfRange(opcode, arg, addr), and a read below 4096 returns the Word of that cell. (R31) -/
def Obligations.MemReadChecksRangeFirst : Prop :=
  ∀ (opcode : Opcode) (arg : Arg) (addr : Word) (s : State),
    (4096 ≤ addr.toNat → memRead opcode arg addr s = .error (.addressOutOfRange opcode arg addr)) ∧
    (addr.toNat < 4096 → memRead opcode arg addr s = .ok (s.mem.read addr.toNat))

/-- A write at an address of 4096 or more is the fault AddressOutOfRange(opcode, arg, addr) and gives no state; a
write below 4096 gives a state that differs only in Memory, in which a MemRead of that address returns the
written value, all 16 bits, and every other cell reads as before. (R32, R33) -/
def Obligations.MemWriteChangesOneCell : Prop :=
  ∀ (opcode : Opcode) (arg : Arg) (addr v : Word) (s : State),
    (4096 ≤ addr.toNat → memWrite opcode arg addr v s = .error (.addressOutOfRange opcode arg addr)) ∧
    (addr.toNat < 4096 → ∃ t, memWrite opcode arg addr v s = .ok t ∧ t = { s with mem := t.mem } ∧
      (∀ opcode' arg', memRead opcode' arg' addr t = .ok v) ∧
      ∀ b, b ≠ addr.toNat → t.mem.read b = s.mem.read b)

/-- Writing any value to any address below 4096 keeps the canonical form of Memory, two canonical Memories that read
the same at every address are equal, and the image of at most 4096 words is canonical. The canonical form is the
model's own (log entries 1 and 2). (10_state.md section 3, notes/assumptions/1.md) -/
def Obligations.MemoryWriteKeepsCanonicalForm : Prop :=
  (∀ (m : Memory) (a : Nat) (v : Word), a < 4096 → m.wf = true → (m.write a v).wf = true) ∧
  (∀ m n : Memory, m.wf = true → n.wf = true → (∀ a, m.read a = n.read a) → m = n) ∧
  (∀ image : List Word, image.length ≤ 4096 → (Memory.imageFrom 0 image).wf = true)

/-- For every 16-bit pointer, the unsigned check (below 4096) and the signed check (0 <= s(ptr) <= 4095) give the
same verdict, and the direct address of every 12-bit argument has the argument's value and is in range.
(20_memory.md section 2, 92_eei_decisions.md D8) -/
def Obligations.PointerVerdictSignedUnsigned : Prop :=
  (∀ ptr : Word, inRange ptr = true ↔ 0 ≤ ptr.toInt ∧ ptr.toInt ≤ 4095) ∧
  (∀ arg : Arg, (directAddr arg).toNat = arg.toNat ∧ inRange (directAddr arg) = true)

/-- When an instruction answers a next state in which a cell reads differently, the instruction is STORE or JNS and
the cell is its direct address, or it is STOREI and the cell is the one its pointer names. (10_state.md section
3, 20_memory.md section 1) -/
def Obligations.MemoryChangesOnlyByStores : Prop :=
  ∀ (i : Instr) (s t : State) (b : Nat), exec i s = .next t → t.mem.read b ≠ s.mem.read b →
    (∃ arg, i = .store arg ∧ b = (directAddr arg).toNat) ∨ (∃ arg, i = .jns arg ∧ b = (directAddr arg).toNat) ∨
    (∃ arg, i = .storei arg ∧ b = (s.mem.read (directAddr arg).toNat).toNat)

/-- Whatever a step does, PROG (and with it L), IN and OUT_OK are the same after it, so a store to any address is
seen by no later instruction fetch. (10_state.md section 3, 20_memory.md section 5) -/
def Obligations.ProgramAndStreamsParametersConstant : Prop :=
  ∀ s t : State, step s = .next t →
    t.prog = s.prog ∧ t.input = s.input ∧ t.outOk = s.outOk ∧ ∀ p : Word, fetch { t with pc := p } = fetch { s with pc := p }

/-- The word 0x1000 | arg decodes to LOAD arg, and from every state LOAD arg answers the state with AC the Word at
Memory[arg], PC + 1, and nothing else changed. (The advance of PC by one is the spec's decision D1, log 9.)
(R90) -/
def Obligations.LoadCopiesCellIntoAc : Prop :=
  ∀ (arg : Arg) (s : State),
    decode (0x1000#16 ||| arg.setWidth 16) = .ok (.load arg) ∧
    exec (.load arg) s = .next { s with ac := s.mem.read (directAddr arg).toNat, pc := s.pc + 1#16 }

/-- The word 0x2000 | arg decodes to STORE arg, and from every state STORE arg answers a state in which Memory[arg]
reads AC, every other cell reads as before, PC is PC + 1 and nothing else changed; a LOAD arg after it leaves AC
as it is. (The advance of PC by one is the spec's decision D1, log 9.) (R91) -/
def Obligations.StoreCopiesAcIntoCell : Prop :=
  ∀ (arg : Arg) (s : State),
    decode (0x2000#16 ||| arg.setWidth 16) = .ok (.store arg) ∧
    ∃ t, exec (.store arg) s = .next t ∧ t = { s with mem := t.mem, pc := s.pc + 1#16 } ∧
      t.mem.read (directAddr arg).toNat = s.ac ∧
      (∀ b, b ≠ (directAddr arg).toNat → t.mem.read b = s.mem.read b) ∧
      exec (.load arg) t = .next { t with ac := s.ac, pc := t.pc + 1#16 }

/-- The word 0xD000 | arg decodes to LOADI arg. With ptr the Word at Memory[arg]: when u(ptr) < 4096, LOADI arg
answers the state with AC the Word at Memory[ptr], PC + 1 and nothing else changed; when u(ptr) >= 4096, it
takes AddressOutOfRange(0xD, arg, ptr): status FAULTED, that fault record, nothing else changed. (The advance of
PC by one is the spec's decision D1, log 9.) (R92) -/
def Obligations.LoadiFollowsPointer : Prop :=
  ∀ (arg : Arg) (s : State),
    decode (0xD000#16 ||| arg.setWidth 16) = .ok (.loadi arg) ∧
    ((s.mem.read (directAddr arg).toNat).toNat < 4096 →
      exec (.loadi arg) s =
        .next { s with ac := s.mem.read (s.mem.read (directAddr arg).toNat).toNat, pc := s.pc + 1#16 }) ∧
    (4096 ≤ (s.mem.read (directAddr arg).toNat).toNat →
      exec (.loadi arg) s =
        .next { s with status := .faulted,
                       fault := some (.addressOutOfRange 0xD#4 arg (s.mem.read (directAddr arg).toNat)) })

/-- The word 0xE000 | arg decodes to STOREI arg. With ptr the Word at Memory[arg]: when u(ptr) < 4096, STOREI arg
answers a state in which Memory[ptr] reads AC, every other cell reads as before, PC is PC + 1 and nothing else
changed; when u(ptr) >= 4096, it takes AddressOutOfRange(0xE, arg, ptr): status FAULTED, that fault record,
nothing else changed. (The advance of PC by one is the spec's decision D1, log 9.) (R93) -/
def Obligations.StoreiFollowsPointer : Prop :=
  ∀ (arg : Arg) (s : State),
    decode (0xE000#16 ||| arg.setWidth 16) = .ok (.storei arg) ∧
    ((s.mem.read (directAddr arg).toNat).toNat < 4096 →
      ∃ t, exec (.storei arg) s = .next t ∧ t = { s with mem := t.mem, pc := s.pc + 1#16 } ∧
        t.mem.read (s.mem.read (directAddr arg).toNat).toNat = s.ac ∧
        ∀ b, b ≠ (s.mem.read (directAddr arg).toNat).toNat → t.mem.read b = s.mem.read b) ∧
    (4096 ≤ (s.mem.read (directAddr arg).toNat).toNat →
      exec (.storei arg) s =
        .next { s with status := .faulted,
                       fault := some (.addressOutOfRange 0xE#4 arg (s.mem.read (directAddr arg).toNat)) })

/-- For all Words a and b: the sum's unsigned value is (u(a) + u(b)) mod 65536 and the difference's is (u(a) + 65536
- u(b)) mod 65536; read as signed numbers each is the exact result when that lies in -32768 to 32767, the exact
result minus 65536 when it is above and plus 65536 when it is below. ADD, SUB and ADDI put that result in AC,
raise no fault and record nothing else: from every state they answer the state with AC and PC changed and no
other field. (That 'native wraparound' is two's-complement wrap is the spec's decision D9, log 9.) (R104) -/
def Obligations.WrapAroundLaw : Prop :=
  (∀ a b : Word,
    (addWord a b).toNat = (a.toNat + b.toNat) % 65536 ∧
    (subWord a b).toNat = (a.toNat + 65536 - b.toNat) % 65536 ∧
    (addWord a b).toInt =
      (if 32767 < a.toInt + b.toInt then a.toInt + b.toInt - 65536
       else if a.toInt + b.toInt < -32768 then a.toInt + b.toInt + 65536 else a.toInt + b.toInt) ∧
    (subWord a b).toInt =
      (if 32767 < a.toInt - b.toInt then a.toInt - b.toInt - 65536
       else if a.toInt - b.toInt < -32768 then a.toInt - b.toInt + 65536 else a.toInt - b.toInt)) ∧
  (∀ (arg : Arg) (s : State),
    exec (.add arg) s =
      .next { s with ac := addWord s.ac (s.mem.read (directAddr arg).toNat), pc := s.pc + 1#16 } ∧
    exec (.addi arg) s =
      .next { s with ac := addWord s.ac (s.mem.read (directAddr arg).toNat), pc := s.pc + 1#16 } ∧
    exec (.sub arg) s =
      .next { s with ac := subWord s.ac (s.mem.read (directAddr arg).toNat), pc := s.pc + 1#16 })

/-- The word 0x3000 | arg decodes to ADD arg, and from every state ADD arg answers the state with AC the 16-bit sum
of AC and Memory[arg], PC + 1, and nothing else changed. (The advance of PC by one is the spec's decision D1,
log 9.) (R100) -/
def Obligations.AddAddsCellToAc : Prop :=
  ∀ (arg : Arg) (s : State),
    decode (0x3000#16 ||| arg.setWidth 16) = .ok (.add arg) ∧
    exec (.add arg) s = .next { s with ac := s.ac + s.mem.read (directAddr arg).toNat, pc := s.pc + 1#16 }

/-- The word 0x4000 | arg decodes to SUB arg, and from every state SUB arg answers the state with AC the 16-bit
difference AC minus Memory[arg], PC + 1, and nothing else changed. (The advance of PC by one is the spec's
decision D1, log 9.) (R101) -/
def Obligations.SubSubtractsCellFromAc : Prop :=
  ∀ (arg : Arg) (s : State),
    decode (0x4000#16 ||| arg.setWidth 16) = .ok (.sub arg) ∧
    exec (.sub arg) s = .next { s with ac := s.ac - s.mem.read (directAddr arg).toNat, pc := s.pc + 1#16 }

/-- The word 0xB000 | arg decodes to ADDI arg; from every state ADDI arg answers the state with AC the 16-bit sum of
AC and Memory[arg], PC + 1, and nothing else changed, and this is what ADD arg answers. (The advance of PC by
one is the spec's decision D1, log 9.) (R102) -/
def Obligations.AddiIsAddUnderAnotherOpcode : Prop :=
  ∀ (arg : Arg) (s : State),
    decode (0xB000#16 ||| arg.setWidth 16) = .ok (.addi arg) ∧
    exec (.addi arg) s = .next { s with ac := s.ac + s.mem.read (directAddr arg).toNat, pc := s.pc + 1#16 } ∧
    exec (.addi arg) s = exec (.add arg) s

/-- The word 0x9000 | arg decodes to CLEAR for every arg, and from every state CLEAR answers the state with AC
0x0000, PC + 1, and nothing else changed. (The advance of PC by one is the spec's decision D1, log 9.) (R103) -/
def Obligations.ClearZeroesAc : Prop :=
  ∀ (arg : Arg) (s : State),
    decode (0x9000#16 ||| arg.setWidth 16) = .ok (.clear arg) ∧
    exec (.clear arg) s = .next { s with ac := 0x0000#16, pc := s.pc + 1#16 }

/-- From every state, ADD arg and then SUB arg answer the starting state with PC advanced by two and nothing else
changed. (42_arithmetic.md, the arithmetic law, 95_test_vectors.md S-ADD) -/
def Obligations.SubUndoesAdd : Prop :=
  ∀ (arg : Arg) (s : State), ∃ t, exec (.add arg) s = .next t ∧ exec (.sub arg) t = .next { s with pc := s.pc + 2#16 }

/-- The word 0x8000 | selector decodes to SKIPCOND; from every state it answers the state with PC + 2 when the
selector is 0x000 and s(AC) < 0, or 0x400 and s(AC) = 0, or 0x800 and s(AC) > 0, and with PC + 1 otherwise, any
other selector included; nothing else changes. (The advance of PC by one is the spec's decision D1, log 9.)
(R110) -/
def Obligations.SkipcondComparesAcWithZero : Prop :=
  ∀ (selector : Arg) (s : State),
    decode (0x8000#16 ||| selector.setWidth 16) = .ok (.skipcond selector) ∧
    exec (.skipcond selector) s =
      .next { s with
        pc := if (selector = 0x000#12 ∧ s.ac.toInt < 0) ∨ (selector = 0x400#12 ∧ s.ac.toInt = 0) ∨
                  (selector = 0x800#12 ∧ 0 < s.ac.toInt)
              then s.pc + 2#16 else s.pc + 1#16 }

/-- For every value of AC there is exactly one selector under which SKIPCOND skips, and it is one of 0x000, 0x400
and 0x800. (43_skip_jump.md SKIPCOND, 95_test_vectors.md section 4) -/
def Obligations.ExactlyOneSelectorSkips : Prop :=
  ∀ ac : Word, ∃ selector : Arg, (selector = 0x000#12 ∨ selector = 0x400#12 ∨ selector = 0x800#12) ∧
    ∀ other : Arg, skipHolds other ac = true ↔ other = selector

/-- The word 0xA000 | arg decodes to JUMP arg, and from every state JUMP arg answers the state with PC the zero-
extended argument and nothing else changed. (R111) -/
def Obligations.JumpSetsPcToArgument : Prop :=
  ∀ (arg : Arg) (s : State),
    decode (0xA000#16 ||| arg.setWidth 16) = .ok (.jump arg) ∧
    exec (.jump arg) s = .next { s with pc := arg.setWidth 16 }

/-- The word 0xC000 | arg decodes to JUMPI arg, and from every state JUMPI arg answers the state with PC the 16 bits
of Memory[arg] as they stand, whatever their value, and nothing else changed. (That the Word is taken unchecked
is the spec's decision D6, log 9.) (R112) -/
def Obligations.JumpiSetsPcToCell : Prop :=
  ∀ (arg : Arg) (s : State),
    decode (0xC000#16 ||| arg.setWidth 16) = .ok (.jumpi arg) ∧
    exec (.jumpi arg) s = .next { s with pc := s.mem.read (directAddr arg).toNat }

/-- The word 0x0000 | arg decodes to JNS arg, and from every state JNS arg answers a state in which Memory[arg]
reads the 16 bits of PC (the offset of the JNS itself), every other cell reads as before, PC is the zero-
extended argument and nothing else changed. (That PC reads as the JNS's own offset, and its 16 bits are stored,
are the spec's decisions D1 and D7, log 9.) (R113) -/
def Obligations.JnsStoresItsOwnOffset : Prop :=
  ∀ (arg : Arg) (s : State),
    decode (0x0000#16 ||| arg.setWidth 16) = .ok (.jns arg) ∧
    ∃ t, exec (.jns arg) s = .next t ∧ t = { s with mem := t.mem, pc := arg.setWidth 16 } ∧
      t.mem.read (directAddr arg).toNat = s.pc ∧
      ∀ b, b ≠ (directAddr arg).toNat → t.mem.read b = s.mem.read b

/-- From every state, JNS arg and then JUMPI arg leave PC at the offset of the JNS, for every one of the 65536
offsets, with AC unchanged. (43_skip_jump.md, the call and return convention) -/
def Obligations.JumpiAfterJnsReturnsToJns : Prop :=
  ∀ (arg : Arg) (s : State), ∃ t u, exec (.jns arg) s = .next t ∧ exec (.jumpi arg) t = .next u ∧ u.pc = s.pc ∧ u.ac = s.ac

/-- When status is RUNNING and the word at PC is a JUMP to PC, every number of steps leads to the same running
state: no run need end. (43_skip_jump.md JUMP, 40_step_cycle.md section 2) -/
def Obligations.JumpToOwnOffsetNeverEnds : Prop :=
  ∀ (s : State) (arg : Arg), s.status = .running → s.pc = arg.setWidth 16 →
    s.prog[s.pc.toNat]? = some (0xA000#16 ||| arg.setWidth 16) → ∀ k : Nat, Reaches k s s

/-- The word 0x5000 | arg decodes to INPUT for every arg. With two bytes b0, b1 left in IN, INPUT answers the state
with AC[7:0] = b0, AC[15:8] = b1, in_pos + 2, PC + 1 and nothing else changed. With fewer than two left it takes
StreamFault(input): AC, Memory, PC and out unchanged, in_pos unchanged or advanced over the one byte that was
left (which of the two is open; draws is the model's own field, log 8). (The byte layout is the spec's decision
D2, the advance of PC D1, log 9.) (R120) -/
def Obligations.InputAssemblesTwoBytes : Prop :=
  ∀ (arg : Arg) (s : State),
    decode (0x5000#16 ||| arg.setWidth 16) = .ok (.input arg) ∧
    (∀ b0 b1 : Byte, s.input.byteAt? s.inPos = some b0 → s.input.byteAt? (s.inPos + 1) = some b1 →
      exec (.input arg) s = .next { s with ac := (b1 ++ b0 : BitVec 16), inPos := s.inPos + 2, pc := s.pc + 1#16 }) ∧
    (s.input.byteAt? (s.inPos + 1) = none →
      ∃ n d, (n = 0 ∨ (n = 1 ∧ (s.input.byteAt? s.inPos).isSome = true)) ∧
        exec (.input arg) s =
          .next { s with inPos := s.inPos + n, draws := d, status := .faulted, fault := some (.streamFault .input) })

/-- The word 0x6000 | arg decodes to OUTPUT for every arg. When the sink accepts, OUTPUT answers the state with
AC[7:0] and then AC[15:8] appended to out, PC + 1 and nothing else changed. When it refuses, OUTPUT takes
StreamFault(output): AC, Memory, PC and in_pos unchanged, out unchanged or longer by the first byte (which of
the two is open; draws is the model's own field, log 8). (The byte layout is the spec's decision D3, the advance
of PC D1, log 9.) (R121) -/
def Obligations.OutputEmitsTwoBytes : Prop :=
  ∀ (arg : Arg) (s : State),
    decode (0x6000#16 ||| arg.setWidth 16) = .ok (.output arg) ∧
    (sinkAccepts s = true →
      exec (.output arg) s =
        .next { s with out := s.out ++ [s.ac.extractLsb' 0 8, s.ac.extractLsb' 8 8], pc := s.pc + 1#16 }) ∧
    (sinkAccepts s = false →
      ∃ bs d, (bs = [] ∨ bs = [s.ac.extractLsb' 0 8]) ∧
        exec (.output arg) s =
          .next { s with out := s.out ++ bs, draws := d, status := .faulted, fault := some (.streamFault .output) })

/-- The word 0x7000 | arg decodes to HALT for every arg, and from every state HALT answers the state with status
HALTED and nothing else changed: PC stays at the HALT (the spec's decision D14), and the step after it is not
defined (the model's named stop, log 4). (44_io_halt.md HALT, notes/assumptions/4.md) -/
def Obligations.HaltStopsWithoutAdvance : Prop :=
  ∀ (arg : Arg) (s : State),
    decode (0x7000#16 ||| arg.setWidth 16) = .ok (.halt arg) ∧
    exec (.halt arg) s = .next { s with status := .halted } ∧
    ∀ t, exec (.halt arg) s = .next t → step t = .fault (.noStepDefined .halted)

/-- For any two 12-bit arguments and every state, INPUT, OUTPUT, HALT and CLEAR answer the same with either
argument, and each word of the four with any argument is legal. (The spec's decision D15, log 9.) (R55) -/
def Obligations.UnusedArgumentIgnored : Prop :=
  ∀ a b : Arg,
    (∀ s : State, exec (.input a) s = exec (.input b) s ∧ exec (.output a) s = exec (.output b) s ∧
      exec (.halt a) s = exec (.halt b) s ∧ exec (.clear a) s = exec (.clear b) s) ∧
    decode (0x5000#16 ||| a.setWidth 16) = .ok (.input a) ∧ decode (0x6000#16 ||| a.setWidth 16) = .ok (.output a) ∧
    decode (0x7000#16 ||| a.setWidth 16) = .ok (.halt a) ∧ decode (0x9000#16 ||| a.setWidth 16) = .ok (.clear a)

/-- From every state in which two bytes b0, b1 are left in IN and the sink accepts, INPUT and then OUTPUT answer a
state whose out has gained exactly b0 and then b1, whose in_pos is two further, and whose Memory is unchanged.
(44_io_halt.md OUTPUT, 95_test_vectors.md section 4) -/
def Obligations.OutputAfterInputEchoesBytes : Prop :=
  ∀ (a b : Arg) (s : State) (b0 b1 : Byte),
    s.input.byteAt? s.inPos = some b0 → s.input.byteAt? (s.inPos + 1) = some b1 → sinkAccepts s = true →
    ∃ t u, exec (.input a) s = .next t ∧ exec (.output b) t = .next u ∧
      u.out = s.out ++ [b0, b1] ∧ u.inPos = s.inPos + 2 ∧ u.mem = s.mem ∧ u.status = s.status

/-- Whether the sink accepts is the answer listed for the number of the OUTPUT, half the length of out, and accept
when none is listed; an accepted OUTPUT raises that number by one. How OUT_OK is held as data is the model's
choice of log entry 7. (10_state.md section 3, 92_eei_decisions.md D20, notes/assumptions/7.md) -/
def Obligations.SinkAnswersOutputsInOrder : Prop :=
  ∀ (s : State) (arg : Arg),
    sinkAccepts s = (s.outOk[s.out.length / 2]?).getD true ∧
    (sinkAccepts s = true →
      ∃ t, exec (.output arg) s = .next t ∧ t.out.length / 2 = s.out.length / 2 + 1 ∧ t.outOk = s.outOk)

/-- A finite source has at each position its listed byte and none past the end. An endless source has a byte at
every position, so INPUT on it consumes two bytes and leaves the status as it was. How an endless source is held
as data is the model's choice of log entry 6. (10_state.md section 3, notes/assumptions/6.md) -/
def Obligations.InputStreamBytes : Prop :=
  (∀ (i : InStream) (p : Nat), i.endless = false → i.byteAt? p = i.bytes[p]?) ∧
  (∀ (s : State) (arg : Arg), s.input.endless = true →
    ∃ t, exec (.input arg) s = .next t ∧ t.inPos = s.inPos + 2 ∧ t.status = s.status ∧ t.fault = s.fault)

/-- For a machine whose sink always accepts, replacing out by any other list of bytes changes nothing in the next
state but out: no program can read what it wrote. (10_state.md section 5) -/
def Obligations.OutputRecordIsNeverRead : Prop :=
  ∀ (s t : State) (o : List Byte), s.outOk = [] → step s = .next t →
    ∃ t', step { s with out := o } = .next t' ∧ { t' with out := t.out } = t

/-- When an instruction answers a next state whose AC differs, it is one of LOAD, LOADI, ADD, SUB, ADDI, CLEAR and
INPUT. (10_state.md section 2) -/
def Obligations.AcChangesOnlyByItsWriters : Prop :=
  ∀ (i : Instr) (s t : State), exec i s = .next t → t.ac ≠ s.ac →
    i.tag ∈ [Tag.load, .loadi, .add, .sub, .addi, .clear, .input]

/-- For every instruction other than STORE, STOREI, OUTPUT, SKIPCOND, ADD, SUB and ADDI, replacing AC by any value
changes nothing in the answered state but AC, and AC either takes the same value as it would have taken (the
instruction writes it) or is left alone (it keeps the replaced value). (10_state.md section 2) -/
def Obligations.AcReadOnlyByItsReaders : Prop :=
  ∀ (i : Instr) (s t : State) (v : Word),
    i.tag ∉ [Tag.store, .storei, .output, .skipcond, .add, .sub, .addi] → exec i s = .next t →
    ∃ t', exec i { s with ac := v } = .next t' ∧ { t' with ac := t.ac } = t ∧
      (t'.ac = t.ac ∨ (t.ac = s.ac ∧ t'.ac = v))

/-- For every instruction other than JNS, running it at any other offset changes nothing in the answered state but
PC. (10_state.md section 2) -/
def Obligations.PcReadAsDataOnlyByJns : Prop :=
  ∀ (i : Instr) (s t : State) (p : Word), i.tag ≠ .jns → exec i s = .next t →
    ∃ t', exec i { s with pc := p } = .next t' ∧ { t' with pc := t.pc } = t

/-- Whenever a step leads to status FAULTED, AC, every Memory cell, PC, the program and the parameters are as before
the step and the fault record is set; when the record is not a StreamFault the state is the old one with status
and fault set and nothing else; a StreamFault(input) may have consumed the one byte left, a StreamFault(output)
may have emitted the first byte, and neither touches the other stream. (The status and the record are the spec's
hardware form of a fault, decision D12.) (R144) -/
def Obligations.FaultEntryIsPrecise : Prop :=
  ∀ s t : State, step s = .next t → t.status = .faulted →
    t.ac = s.ac ∧ t.mem = s.mem ∧ t.pc = s.pc ∧ t.prog = s.prog ∧ t.input = s.input ∧ t.outOk = s.outOk ∧
    ((∃ f, t = { s with status := .faulted, fault := some f } ∧ f ≠ .streamFault .input ∧ f ≠ .streamFault .output) ∨
     (t.fault = some (.streamFault .input) ∧ t.out = s.out ∧
       (t.inPos = s.inPos ∨ (t.inPos = s.inPos + 1 ∧ (s.input.byteAt? s.inPos).isSome = true))) ∨
     (t.fault = some (.streamFault .output) ∧ t.inPos = s.inPos ∧
       (t.out = s.out ∨ t.out = s.out ++ [s.ac.extractLsb' 0 8])))

/-- From a running state an instruction leads to FAULTED exactly in these cases: LOADI with a pointer of 4096 or
more, STOREI with such a pointer, INPUT with fewer than two bytes left, OUTPUT when the sink refuses. The
records are then AddressOutOfRange(0xD, arg, ptr), AddressOutOfRange(0xE, arg, ptr), StreamFault(input) and
StreamFault(output). No other instruction faults. (60_exceptions.md section 1) -/
def Obligations.WhichInstructionRaisesWhichFault : Prop :=
  ∀ (i : Instr) (s t : State), s.status = .running → exec i s = .next t →
    (t.status = .faulted ↔
      (∃ arg, i = .loadi arg ∧ 4096 ≤ (s.mem.read (directAddr arg).toNat).toNat) ∨
      (∃ arg, i = .storei arg ∧ 4096 ≤ (s.mem.read (directAddr arg).toNat).toNat) ∨
      (∃ arg, i = .input arg ∧ s.input.byteAt? (s.inPos + 1) = none) ∨
      (∃ arg, i = .output arg ∧ sinkAccepts s = false)) ∧
    (t.status = .faulted →
      (∀ arg, i = .loadi arg →
        t.fault = some (.addressOutOfRange 0xD#4 arg (s.mem.read (directAddr arg).toNat))) ∧
      (∀ arg, i = .storei arg →
        t.fault = some (.addressOutOfRange 0xE#4 arg (s.mem.read (directAddr arg).toNat))) ∧
      (∀ arg, i = .input arg → t.fault = some (.streamFault .input)) ∧
      (∀ arg, i = .output arg → t.fault = some (.streamFault .output)))

/-- The cause code of an empty fault is 0, of AddressOutOfRange 1, of UnknownOpcode 2 and of StreamFault 3, whatever
the diagnostic. The numbers are the spec's decision D12. (60_exceptions.md section 1, 92_eei_decisions.md D12) -/
def Obligations.CauseCodesOfFaults : Prop :=
  causeCode none = 0 ∧ (∀ op arg ptr, causeCode (some (.addressOutOfRange op arg ptr)) = 1) ∧
  (∀ op, causeCode (some (.unknownOpcode op)) = 2) ∧ ∀ d, causeCode (some (.streamFault d)) = 3

/-- After reset AC and PC are 0x0000, every cell of Memory reads 0x0000, in_pos is 0, out is empty, status is
RUNNING and fault is none. The values are the spec's decision D10. (10_state.md section 6, 92_eei_decisions.md
D10) -/
def Obligations.ResetStateValues : Prop :=
  State.reset.ac = 0x0000#16 ∧ State.reset.pc = 0x0000#16 ∧ (∀ a, State.reset.mem.read a = 0x0000#16) ∧
  State.reset.inPos = 0 ∧ State.reset.out = [] ∧ State.reset.status = .running ∧ State.reset.fault = none

/-- For every program of at most 65535 words and every Memory image of 4096 words or none, reset answers a state
whose PROG, IN and OUT_OK are those given, whose cells read the image word by word (0x0000 without one), with
AC, PC and in_pos zero, out empty, status RUNNING and no fault. The values are the spec's decision D10.
(70_reset_and_hazards.md sections 1 and 2, 92_eei_decisions.md D10) -/
def Obligations.LaunchBindsParameters : Prop :=
  ∀ p : Parameters, p.prog.length ≤ 65535 → (∀ image, p.memInit = some image → image.length = 4096) →
    ∃ t, State.launch p = .next t ∧ t.prog = p.prog ∧ t.input = p.input ∧ t.outOk = p.outOk ∧
      (p.memInit = none → ∀ a, t.mem.read a = 0x0000#16) ∧
      (∀ image, p.memInit = some image → ∀ a, a < 4096 → image[a]? = some (t.mem.read a)) ∧
      t.ac = 0x0000#16 ∧ t.pc = 0x0000#16 ∧ t.inPos = 0 ∧ t.out = [] ∧ t.status = .running ∧ t.fault = none

/-- A program of more than 65535 words is refused as programTooLong, and with a legal program a Memory image that
has not 4096 words is refused as memoryImageWrongLength. The refusal is the model's choice of log entry 11, as
93_implementation_defined.md section 2 suggests. (93_implementation_defined.md section 2,
notes/assumptions/11.md) -/
def Obligations.LaunchRefusesParametersOutOfRange : Prop :=
  (∀ p : Parameters, 65535 < p.prog.length → State.launch p = .refused (.programTooLong p.prog.length)) ∧
  (∀ (p : Parameters) (image : List Word), p.prog.length ≤ 65535 → p.memInit = some image → image.length ≠ 4096 →
    State.launch p = .refused (.memoryImageWrongLength image.length))

/-- State.reset meets every clause of the machine's invariant Inv. (10_state.md sections 4 and 6) -/
def Obligations.ResetMeetsInvariant : Prop :=
  Inv State.reset

/-- From every state that meets Inv, a step that answers a next state answers one that meets Inv: Memory in
canonical form with addresses below 4096, at most 65535 program words, FAULTED exactly when a fault is recorded,
the record explained by the word at PC and the state around it, a halted machine at a HALT, an ended one at or
beyond the end of its program, no more input consumed than there is, and two output bytes per completed OUTPUT.
(10_state.md sections 2 to 5, 60_exceptions.md sections 1 and 2) -/
def Obligations.StepKeepsInvariant : Prop :=
  ∀ s t : State, Inv s → step s = .next t → Inv t

/-- For every program, Memory image, input sequence and sink that reset accepts, every state that any number of
steps reaches meets Inv. (10_state.md sections 2 to 5, 40_step_cycle.md section 2, 70_reset_and_hazards.md
section 1) -/
def Obligations.LaunchedRunsKeepInvariant : Prop :=
  ∀ (p : Parameters) (s t : State) (k : Nat), State.launch p = .next s → Reaches k s t → Inv t

/-- For every infinite sequence of bytes and every length n there is an endless input source that has the sequence's
byte at each of the first n positions. A repeating source has its listed bytes, then its repeated bytes one
after another, and then those again for ever. How IN is held as data is the model's choice of log entry 6.
(10_state.md section 3, 92_eei_decisions.md D19, notes/assumptions/6.md) -/
def Obligations.EveryInputSequenceCanBeGiven : Prop :=
  (∀ (f : Nat → Byte) (n : Nat), ∃ i : InStream, i.endless = true ∧ ∀ p, p < n → i.byteAt? p = some (f p)) ∧
  (∀ (bytes : List Byte) (first : Byte) (rest : List Byte),
    (∀ p, p < bytes.length → (InStream.mk bytes (.repeats first rest)).byteAt? p = bytes[p]?) ∧
    (∀ q, q < rest.length + 1 →
      (InStream.mk bytes (.repeats first rest)).byteAt? (bytes.length + q) = (first :: rest)[q]?) ∧
    ∀ p, bytes.length ≤ p →
      (InStream.mk bytes (.repeats first rest)).byteAt? (p + (rest.length + 1)) =
        (InStream.mk bytes (.repeats first rest)).byteAt? p)

/-- When two input sequences agree at the positions in_pos and in_pos + 1, a step does the same with either: the
answered states differ in the sequence they hold and in nothing else. When two sequences agree at the 2k
positions from in_pos on, the same holds of a run of k steps. (10_state.md section 3, 44_io_halt.md INPUT) -/
def Obligations.InputReadOnlyAtItsCursor : Prop :=
  (∀ (s t : State) (other : InStream),
    other.byteAt? s.inPos = s.input.byteAt? s.inPos → other.byteAt? (s.inPos + 1) = s.input.byteAt? (s.inPos + 1) →
    step s = .next t → step { s with input := other } = .next { t with input := other }) ∧
  (∀ (k : Nat) (s t : State) (other : InStream),
    (∀ p, s.inPos ≤ p → p < s.inPos + 2 * k → other.byteAt? p = s.input.byteAt? p) →
    Reaches k s t → Reaches k { s with input := other } { t with input := other })
end

