-- ==== Sys2Proof/Laws/Decode.lean ====
section
/-! SUPPORT. The fields of a word, and what the decoder and the encoder do with them. -/

namespace Sys2Proof

theorem append_toNat (op : Opcode) (arg : Arg) : (op ++ arg : Word).toNat = op.toNat * 4096 + arg.toNat := by
  have h := BitVec.toNat_append op arg
  have := arg.isLt
  rw [← Nat.shiftLeft_add_eq_or_of_lt (by omega), Nat.shiftLeft_eq] at h
  exact h

theorem opcodeField_toNat (w : Word) : (opcodeField w).toNat = w.toNat / 4096 := by
  have := w.isLt
  simp only [opcodeField, BitVec.extractLsb'_toNat, Nat.shiftRight_eq_div_pow]
  omega

theorem argField_toNat (w : Word) : (argField w).toNat = w.toNat % 4096 := by
  simp [argField, BitVec.extractLsb'_toNat]

theorem opcodeField_append (op : Opcode) (arg : Arg) : opcodeField (op ++ arg) = op := by
  apply BitVec.eq_of_toNat_eq
  have := arg.isLt
  rw [opcodeField_toNat, append_toNat]
  omega

theorem argField_append (op : Opcode) (arg : Arg) : argField (op ++ arg) = arg := by
  apply BitVec.eq_of_toNat_eq
  have := arg.isLt
  rw [argField_toNat, append_toNat]
  omega

/-- A word is its opcode field over its argument field (R51). -/
theorem append_fields (w : Word) : (opcodeField w ++ argField w : Word) = w := by
  apply BitVec.eq_of_toNat_eq
  rw [append_toNat, opcodeField_toNat, argField_toNat]
  omega

/-- The decoder on a word written as opcode over argument. -/
theorem decode_append (op : Opcode) (arg : Arg) : decode (op ++ arg) = instrOf op arg := by
  rw [decode, opcodeField_append, argField_append]

/-- The word the spec writes as `match | arg` (R53) is opcode over argument. -/
theorem or_setWidth_eq_append (op : Opcode) (arg : Arg) (m : Word) (hm : m.toNat = op.toNat * 4096) :
    m ||| arg.setWidth 16 = (op ++ arg : Word) := by
  apply BitVec.eq_of_toNat_eq
  have ha := arg.isLt
  have h : (arg.setWidth 16).toNat = arg.toNat := by simp only [BitVec.toNat_setWidth]; omega
  rw [append_toNat, BitVec.toNat_or, h, hm, Nat.mul_comm,
    ← Nat.two_pow_add_eq_or_of_lt (i := 12) (by omega)]

theorem instrOf_eq_ok {op : Opcode} {arg : Arg} {i : Instr} (h : instrOf op arg = .ok i) :
    i.opcode = op ∧ i.arg = arg := by
  unfold instrOf at h
  split at h <;> first
    | (cases h; exact ⟨rfl, rfl⟩)
    | cases h

theorem instrOf_eq_error {op : Opcode} {arg : Arg} {e : DecodeError} (h : instrOf op arg = .error e) :
    op = 0xF#4 ∧ e = .unknownOpcode 0xF#4 := by
  unfold instrOf at h
  split at h <;> try cases h
  have hop : op = 0xF#4 := by
    revert op
    decide
  exact ⟨hop, by rw [hop]⟩

/-- The decoder's one error (R56). -/
theorem decode_eq_error {w : Word} {e : DecodeError} (h : decode w = .error e) :
    opcodeField w = 0xF#4 ∧ e = .unknownOpcode 0xF#4 :=
  instrOf_eq_error h

/-- A decoded word is opcode over argument of its instruction. -/
theorem eq_append_of_decode {w : Word} {i : Instr} (h : decode w = .ok i) : w = (i.opcode ++ i.arg : Word) := by
  obtain ⟨ho, ha⟩ := instrOf_eq_ok h
  rw [ho, ha, append_fields]

end Sys2Proof
end

