-- ==== Sys2Proof/Laws/Memory.lean ====
section
/-! SUPPORT. Memory: a read after a write, and that every operation keeps the canonical form. -/

namespace Sys2Proof.Machine

@[simp] theorem Memory.read_nil (a : Nat) : Memory.read [] a = Memory.unlisted := rfl

theorem Memory.read_erase_same (m : Memory) (a : Nat) : (m.erase a).read a = Memory.unlisted := by
  induction m with
  | nil => rfl
  | cons c rest ih =>
    obtain ⟨b, w⟩ := c
    by_cases h : a = b <;> simp [Memory.erase, Memory.read, h]
    · subst h; exact ih
    · exact ih

theorem Memory.read_erase_other (m : Memory) {a b : Nat} (hab : b ≠ a) : (m.erase a).read b = m.read b := by
  induction m with
  | nil => rfl
  | cons c rest ih =>
    obtain ⟨d, w⟩ := c
    by_cases h : a = d
    · subst h; simpa [Memory.erase, Memory.read, hab] using ih
    · by_cases h' : b = d
      · simp [Memory.erase, Memory.read, h, h']
      · simpa [Memory.erase, Memory.read, h, h'] using ih

theorem Memory.read_insert_other (m : Memory) {a b : Nat} (v : Word) (hab : b ≠ a) :
    (m.insert a v).read b = m.read b := by
  induction m with
  | nil => simp [Memory.insert, Memory.read, hab]
  | cons c rest ih =>
    obtain ⟨d, w⟩ := c
    by_cases h : a < d
    · simp [Memory.insert, Memory.read, h, hab]
    · by_cases h' : b = d
      · simp [Memory.insert, Memory.read, h, h']
      · simpa [Memory.insert, Memory.read, h, h'] using ih

/-- An inserted entry is read back when no entry for its address stood before it. -/
theorem Memory.read_insert_erase (m : Memory) (a : Nat) (v : Word) : ((m.erase a).insert a v).read a = v := by
  induction m with
  | nil => simp [Memory.erase, Memory.insert, Memory.read]
  | cons c rest ih =>
    obtain ⟨d, w⟩ := c
    by_cases h : a = d
    · subst h; simpa [Memory.erase] using ih
    · by_cases h' : a < d
      · simp [Memory.erase, Memory.insert, Memory.read, h, h']
      · simpa [Memory.erase, Memory.insert, Memory.read, h, h'] using ih

/-- A read after a write to the same cell (R33). -/
@[simp] theorem Memory.read_write_same (m : Memory) (a : Nat) (v : Word) : (m.write a v).read a = v := by
  unfold Memory.write
  split
  · rename_i h; rw [Memory.read_erase_same, h]
  · exact Memory.read_insert_erase m a v

/-- A write leaves every other cell alone (R30). -/
theorem Memory.read_write_other (m : Memory) {a b : Nat} (v : Word) (hab : b ≠ a) :
    (m.write a v).read b = m.read b := by
  unfold Memory.write
  split
  · exact Memory.read_erase_other m hab
  · rw [Memory.read_insert_other _ v hab, Memory.read_erase_other m hab]

theorem Memory.wf_cons (a : Nat) (v : Word) (rest : Memory) :
    Memory.wf ((a, v) :: rest) = true ↔
      a < 4096 ∧ v ≠ Memory.unlisted ∧ (∀ c ∈ rest, a < c.1) ∧ Memory.wf rest = true := by
  simp [Memory.wf, Config.memWords, and_assoc]

theorem Memory.mem_of_mem_erase {m : Memory} {a : Nat} {c : Nat × Word} (h : c ∈ m.erase a) : c ∈ m := by
  induction m with
  | nil => simp [Memory.erase] at h
  | cons d rest ih =>
    obtain ⟨b, w⟩ := d
    by_cases hb : a = b
    · simp only [Memory.erase, hb, if_true] at h
      exact List.mem_cons_of_mem _ (ih (hb ▸ h))
    · simp only [Memory.erase, hb, if_false, List.mem_cons] at h
      exact h.elim (fun h => h ▸ List.mem_cons_self) fun h => List.mem_cons_of_mem _ (ih h)

theorem Memory.ne_of_mem_erase {m : Memory} {a : Nat} {c : Nat × Word} (h : c ∈ m.erase a) : c.1 ≠ a := by
  induction m with
  | nil => simp [Memory.erase] at h
  | cons d rest ih =>
    obtain ⟨b, w⟩ := d
    by_cases hb : a = b
    · subst hb; exact ih (by simpa [Memory.erase] using h)
    · simp only [Memory.erase, hb, if_false, List.mem_cons] at h
      exact h.elim (fun h => h ▸ fun e => hb e.symm) ih

theorem Memory.mem_of_mem_insert {m : Memory} {a : Nat} {v : Word} {c : Nat × Word} (h : c ∈ m.insert a v) :
    c = (a, v) ∨ c ∈ m := by
  induction m with
  | nil => simpa [Memory.insert] using h
  | cons d rest ih =>
    obtain ⟨b, w⟩ := d
    by_cases hb : a < b
    · simpa [Memory.insert, hb] using h
    · simp only [Memory.insert, hb, if_false, List.mem_cons] at h
      rcases h with h | h
      · exact .inr (h ▸ List.mem_cons_self)
      · exact (ih h).imp_right (List.mem_cons_of_mem _)

theorem Memory.wf_erase {m : Memory} (a : Nat) (h : m.wf = true) : (m.erase a).wf = true := by
  induction m with
  | nil => rfl
  | cons d rest ih =>
    obtain ⟨b, w⟩ := d
    obtain ⟨hb, hw, hlt, hrest⟩ := (Memory.wf_cons b w rest).1 h
    by_cases hab : a = b
    · simpa [Memory.erase, hab] using hab ▸ ih hrest
    · simp only [Memory.erase, hab, if_false]
      exact (Memory.wf_cons b w _).2 ⟨hb, hw, fun c hc => hlt c (Memory.mem_of_mem_erase hc), ih hrest⟩

theorem Memory.wf_insert {m : Memory} {a : Nat} {v : Word} (ha : a < 4096) (hv : v ≠ Memory.unlisted)
    (hm : ∀ c ∈ m, c.1 ≠ a) (h : m.wf = true) : (m.insert a v).wf = true := by
  induction m with
  | nil => exact (Memory.wf_cons a v []).2 ⟨ha, hv, by simp, rfl⟩
  | cons d rest ih =>
    obtain ⟨b, w⟩ := d
    obtain ⟨hb, hw, hlt, hrest⟩ := (Memory.wf_cons b w rest).1 h
    have hne : b ≠ a := hm (b, w) List.mem_cons_self
    by_cases hab : a < b
    · simp only [Memory.insert, hab, if_true]
      refine (Memory.wf_cons a v _).2 ⟨ha, hv, fun c hc => ?_, h⟩
      rcases List.mem_cons.1 hc with rfl | hc
      · exact hab
      · exact hab.trans (hlt c hc)
    · simp only [Memory.insert, hab, if_false]
      refine (Memory.wf_cons b w _).2
        ⟨hb, hw, fun c hc => ?_, ih (fun c hc => hm c (List.mem_cons_of_mem _ hc)) hrest⟩
      rcases Memory.mem_of_mem_insert hc with rfl | hc
      · show b < a; omega
      · exact hlt c hc

/-- A write keeps the canonical form. -/
theorem Memory.wf_write {m : Memory} {a : Nat} (v : Word) (ha : a < 4096) (h : m.wf = true) :
    (m.write a v).wf = true := by
  unfold Memory.write
  split
  · exact Memory.wf_erase a h
  · rename_i hv
    exact Memory.wf_insert ha hv (fun c hc => Memory.ne_of_mem_erase hc) (Memory.wf_erase a h)

theorem Memory.imageFrom_bounds (image : List Word) (a : Nat) :
    ∀ c ∈ Memory.imageFrom a image, a ≤ c.1 ∧ c.1 < a + image.length := by
  induction image generalizing a with
  | nil => simp [Memory.imageFrom]
  | cons v rest ih =>
    intro c hc
    have := ih (a + 1) c
    unfold Memory.imageFrom at hc
    simp only [List.length_cons]
    split at hc
    · have := this hc; omega
    · rcases List.mem_cons.1 hc with rfl | hc
      · simp
      · have := this hc; omega

/-- A Memory image that fits is in canonical form. -/
theorem Memory.wf_imageFrom (image : List Word) (a : Nat) (h : a + image.length ≤ 4096) :
    (Memory.imageFrom a image).wf = true := by
  induction image generalizing a with
  | nil => rfl
  | cons v rest ih =>
    simp only [List.length_cons] at h
    have hrest := ih (a + 1) (by omega)
    unfold Memory.imageFrom
    split
    · exact hrest
    · rename_i hv
      refine (Memory.wf_cons a v _).2 ⟨by omega, hv, fun c hc => ?_, hrest⟩
      have := Memory.imageFrom_bounds rest (a + 1) c hc
      omega

theorem Memory.read_imageFrom_before (image : List Word) (a b : Nat) (h : b < a) :
    (Memory.imageFrom a image).read b = Memory.unlisted := by
  induction image generalizing a with
  | nil => rfl
  | cons v rest ih =>
    unfold Memory.imageFrom
    split
    · exact ih (a + 1) (by omega)
    · simp [Memory.read, show b ≠ a by omega, ih (a + 1) (by omega)]

/-- A Memory image reads back word by word. -/
theorem Memory.read_imageFrom (image : List Word) (a k : Nat) :
    (Memory.imageFrom a image).read (a + k) = image.getD k Memory.unlisted := by
  induction image generalizing a k with
  | nil => simp [Memory.imageFrom]
  | cons v rest ih =>
    cases k with
    | zero =>
      unfold Memory.imageFrom
      split
      · rename_i hv; simp [Memory.read_imageFrom_before, hv]
      · simp [Memory.read]
    | succ k =>
      have h : a + (k + 1) = a + 1 + k := by omega
      unfold Memory.imageFrom
      split
      · rw [h, ih]; simp
      · simp only [Memory.read, show ¬ a + (k + 1) = a by omega, if_false]
        rw [h, ih]; simp

end Sys2Proof.Machine
end

