-- ==== Sys2Proof/Laws/State.lean ====
section
/-! SUPPORT. One lemma per field per update of the state, each true by unfolding the update. -/

namespace Sys2Proof.Machine

/-! ### raise -/

@[simp] theorem raise_ac (f : FaultRecord) (s : State) : (raise f s).ac = s.ac := rfl
@[simp] theorem raise_pc (f : FaultRecord) (s : State) : (raise f s).pc = s.pc := rfl
@[simp] theorem raise_mem (f : FaultRecord) (s : State) : (raise f s).mem = s.mem := rfl
@[simp] theorem raise_inPos (f : FaultRecord) (s : State) : (raise f s).inPos = s.inPos := rfl
@[simp] theorem raise_out (f : FaultRecord) (s : State) : (raise f s).out = s.out := rfl
@[simp] theorem raise_status (f : FaultRecord) (s : State) : (raise f s).status = .faulted := rfl
@[simp] theorem raise_fault (f : FaultRecord) (s : State) : (raise f s).fault = some f := rfl
@[simp] theorem raise_prog (f : FaultRecord) (s : State) : (raise f s).prog = s.prog := rfl
@[simp] theorem raise_input (f : FaultRecord) (s : State) : (raise f s).input = s.input := rfl
@[simp] theorem raise_outOk (f : FaultRecord) (s : State) : (raise f s).outOk = s.outOk := rfl
@[simp] theorem raise_draws (f : FaultRecord) (s : State) : (raise f s).draws = s.draws := rfl

/-! ### setAc -/

@[simp] theorem setAc_ac (v : Word) (s : State) : (setAc v s).ac = v := rfl
@[simp] theorem setAc_pc (v : Word) (s : State) : (setAc v s).pc = s.pc := rfl
@[simp] theorem setAc_mem (v : Word) (s : State) : (setAc v s).mem = s.mem := rfl
@[simp] theorem setAc_inPos (v : Word) (s : State) : (setAc v s).inPos = s.inPos := rfl
@[simp] theorem setAc_out (v : Word) (s : State) : (setAc v s).out = s.out := rfl
@[simp] theorem setAc_status (v : Word) (s : State) : (setAc v s).status = s.status := rfl
@[simp] theorem setAc_fault (v : Word) (s : State) : (setAc v s).fault = s.fault := rfl
@[simp] theorem setAc_prog (v : Word) (s : State) : (setAc v s).prog = s.prog := rfl
@[simp] theorem setAc_input (v : Word) (s : State) : (setAc v s).input = s.input := rfl
@[simp] theorem setAc_outOk (v : Word) (s : State) : (setAc v s).outOk = s.outOk := rfl
@[simp] theorem setAc_draws (v : Word) (s : State) : (setAc v s).draws = s.draws := rfl

/-! ### jumpTo -/

@[simp] theorem jumpTo_ac (target : Word) (s : State) : (jumpTo target s).ac = s.ac := rfl
@[simp] theorem jumpTo_pc (target : Word) (s : State) : (jumpTo target s).pc = target := rfl
@[simp] theorem jumpTo_mem (target : Word) (s : State) : (jumpTo target s).mem = s.mem := rfl
@[simp] theorem jumpTo_inPos (target : Word) (s : State) : (jumpTo target s).inPos = s.inPos := rfl
@[simp] theorem jumpTo_out (target : Word) (s : State) : (jumpTo target s).out = s.out := rfl
@[simp] theorem jumpTo_status (target : Word) (s : State) : (jumpTo target s).status = s.status := rfl
@[simp] theorem jumpTo_fault (target : Word) (s : State) : (jumpTo target s).fault = s.fault := rfl
@[simp] theorem jumpTo_prog (target : Word) (s : State) : (jumpTo target s).prog = s.prog := rfl
@[simp] theorem jumpTo_input (target : Word) (s : State) : (jumpTo target s).input = s.input := rfl
@[simp] theorem jumpTo_outOk (target : Word) (s : State) : (jumpTo target s).outOk = s.outOk := rfl
@[simp] theorem jumpTo_draws (target : Word) (s : State) : (jumpTo target s).draws = s.draws := rfl

/-! ### advance -/

@[simp] theorem advance_ac (s : State) : (advance s).ac = s.ac := rfl
@[simp] theorem advance_pc (s : State) : (advance s).pc = addWord s.pc 0x0001#16 := rfl
@[simp] theorem advance_mem (s : State) : (advance s).mem = s.mem := rfl
@[simp] theorem advance_inPos (s : State) : (advance s).inPos = s.inPos := rfl
@[simp] theorem advance_out (s : State) : (advance s).out = s.out := rfl
@[simp] theorem advance_status (s : State) : (advance s).status = s.status := rfl
@[simp] theorem advance_fault (s : State) : (advance s).fault = s.fault := rfl
@[simp] theorem advance_prog (s : State) : (advance s).prog = s.prog := rfl
@[simp] theorem advance_input (s : State) : (advance s).input = s.input := rfl
@[simp] theorem advance_outOk (s : State) : (advance s).outOk = s.outOk := rfl
@[simp] theorem advance_draws (s : State) : (advance s).draws = s.draws := rfl

/-! ### skipNext -/

@[simp] theorem skipNext_ac (s : State) : (skipNext s).ac = s.ac := rfl
@[simp] theorem skipNext_pc (s : State) : (skipNext s).pc = addWord s.pc 0x0002#16 := rfl
@[simp] theorem skipNext_mem (s : State) : (skipNext s).mem = s.mem := rfl
@[simp] theorem skipNext_inPos (s : State) : (skipNext s).inPos = s.inPos := rfl
@[simp] theorem skipNext_out (s : State) : (skipNext s).out = s.out := rfl
@[simp] theorem skipNext_status (s : State) : (skipNext s).status = s.status := rfl
@[simp] theorem skipNext_fault (s : State) : (skipNext s).fault = s.fault := rfl
@[simp] theorem skipNext_prog (s : State) : (skipNext s).prog = s.prog := rfl
@[simp] theorem skipNext_input (s : State) : (skipNext s).input = s.input := rfl
@[simp] theorem skipNext_outOk (s : State) : (skipNext s).outOk = s.outOk := rfl
@[simp] theorem skipNext_draws (s : State) : (skipNext s).draws = s.draws := rfl

/-! ### haltRun -/

@[simp] theorem haltRun_ac (s : State) : (haltRun s).ac = s.ac := rfl
@[simp] theorem haltRun_pc (s : State) : (haltRun s).pc = s.pc := rfl
@[simp] theorem haltRun_mem (s : State) : (haltRun s).mem = s.mem := rfl
@[simp] theorem haltRun_inPos (s : State) : (haltRun s).inPos = s.inPos := rfl
@[simp] theorem haltRun_out (s : State) : (haltRun s).out = s.out := rfl
@[simp] theorem haltRun_status (s : State) : (haltRun s).status = .halted := rfl
@[simp] theorem haltRun_fault (s : State) : (haltRun s).fault = s.fault := rfl
@[simp] theorem haltRun_prog (s : State) : (haltRun s).prog = s.prog := rfl
@[simp] theorem haltRun_input (s : State) : (haltRun s).input = s.input := rfl
@[simp] theorem haltRun_outOk (s : State) : (haltRun s).outOk = s.outOk := rfl
@[simp] theorem haltRun_draws (s : State) : (haltRun s).draws = s.draws := rfl

/-! ### endRun -/

@[simp] theorem endRun_ac (s : State) : (endRun s).ac = s.ac := rfl
@[simp] theorem endRun_pc (s : State) : (endRun s).pc = s.pc := rfl
@[simp] theorem endRun_mem (s : State) : (endRun s).mem = s.mem := rfl
@[simp] theorem endRun_inPos (s : State) : (endRun s).inPos = s.inPos := rfl
@[simp] theorem endRun_out (s : State) : (endRun s).out = s.out := rfl
@[simp] theorem endRun_status (s : State) : (endRun s).status = .ended := rfl
@[simp] theorem endRun_fault (s : State) : (endRun s).fault = s.fault := rfl
@[simp] theorem endRun_prog (s : State) : (endRun s).prog = s.prog := rfl
@[simp] theorem endRun_input (s : State) : (endRun s).input = s.input := rfl
@[simp] theorem endRun_outOk (s : State) : (endRun s).outOk = s.outOk := rfl
@[simp] theorem endRun_draws (s : State) : (endRun s).draws = s.draws := rfl

/-! ### setCell -/

@[simp] theorem setCell_ac (a : Nat) (v : Word) (s : State) : (setCell a v s).ac = s.ac := rfl
@[simp] theorem setCell_pc (a : Nat) (v : Word) (s : State) : (setCell a v s).pc = s.pc := rfl
@[simp] theorem setCell_mem (a : Nat) (v : Word) (s : State) : (setCell a v s).mem = s.mem.write a v := rfl
@[simp] theorem setCell_inPos (a : Nat) (v : Word) (s : State) : (setCell a v s).inPos = s.inPos := rfl
@[simp] theorem setCell_out (a : Nat) (v : Word) (s : State) : (setCell a v s).out = s.out := rfl
@[simp] theorem setCell_status (a : Nat) (v : Word) (s : State) : (setCell a v s).status = s.status := rfl
@[simp] theorem setCell_fault (a : Nat) (v : Word) (s : State) : (setCell a v s).fault = s.fault := rfl
@[simp] theorem setCell_prog (a : Nat) (v : Word) (s : State) : (setCell a v s).prog = s.prog := rfl
@[simp] theorem setCell_input (a : Nat) (v : Word) (s : State) : (setCell a v s).input = s.input := rfl
@[simp] theorem setCell_outOk (a : Nat) (v : Word) (s : State) : (setCell a v s).outOk = s.outOk := rfl
@[simp] theorem setCell_draws (a : Nat) (v : Word) (s : State) : (setCell a v s).draws = s.draws := rfl

/-! ### consumeTwo -/

@[simp] theorem consumeTwo_ac (s : State) : (consumeTwo s).ac = s.ac := rfl
@[simp] theorem consumeTwo_pc (s : State) : (consumeTwo s).pc = s.pc := rfl
@[simp] theorem consumeTwo_mem (s : State) : (consumeTwo s).mem = s.mem := rfl
@[simp] theorem consumeTwo_inPos (s : State) : (consumeTwo s).inPos = s.inPos + 2 := rfl
@[simp] theorem consumeTwo_out (s : State) : (consumeTwo s).out = s.out := rfl
@[simp] theorem consumeTwo_status (s : State) : (consumeTwo s).status = s.status := rfl
@[simp] theorem consumeTwo_fault (s : State) : (consumeTwo s).fault = s.fault := rfl
@[simp] theorem consumeTwo_prog (s : State) : (consumeTwo s).prog = s.prog := rfl
@[simp] theorem consumeTwo_input (s : State) : (consumeTwo s).input = s.input := rfl
@[simp] theorem consumeTwo_outOk (s : State) : (consumeTwo s).outOk = s.outOk := rfl
@[simp] theorem consumeTwo_draws (s : State) : (consumeTwo s).draws = s.draws := rfl

/-! ### failInput -/

@[simp] theorem failInput_ac (s : State) : (failInput s).ac = s.ac := rfl
@[simp] theorem failInput_pc (s : State) : (failInput s).pc = s.pc := rfl
@[simp] theorem failInput_mem (s : State) : (failInput s).mem = s.mem := rfl
@[simp] theorem failInput_inPos (s : State) : (failInput s).inPos = s.inPos + failedInputCount s := rfl
@[simp] theorem failInput_out (s : State) : (failInput s).out = s.out := rfl
@[simp] theorem failInput_status (s : State) : (failInput s).status = .faulted := rfl
@[simp] theorem failInput_fault (s : State) : (failInput s).fault = some (.streamFault .input) := rfl
@[simp] theorem failInput_prog (s : State) : (failInput s).prog = s.prog := rfl
@[simp] theorem failInput_input (s : State) : (failInput s).input = s.input := rfl
@[simp] theorem failInput_outOk (s : State) : (failInput s).outOk = s.outOk := rfl
@[simp] theorem failInput_draws (s : State) : (failInput s).draws = s.draws + 1 := rfl

/-! ### emitTwo -/

@[simp] theorem emitTwo_ac (b0 b1 : Byte) (s : State) : (emitTwo b0 b1 s).ac = s.ac := rfl
@[simp] theorem emitTwo_pc (b0 b1 : Byte) (s : State) : (emitTwo b0 b1 s).pc = s.pc := rfl
@[simp] theorem emitTwo_mem (b0 b1 : Byte) (s : State) : (emitTwo b0 b1 s).mem = s.mem := rfl
@[simp] theorem emitTwo_inPos (b0 b1 : Byte) (s : State) : (emitTwo b0 b1 s).inPos = s.inPos := rfl
@[simp] theorem emitTwo_out (b0 b1 : Byte) (s : State) : (emitTwo b0 b1 s).out = s.out ++ [b0, b1] := rfl
@[simp] theorem emitTwo_status (b0 b1 : Byte) (s : State) : (emitTwo b0 b1 s).status = s.status := rfl
@[simp] theorem emitTwo_fault (b0 b1 : Byte) (s : State) : (emitTwo b0 b1 s).fault = s.fault := rfl
@[simp] theorem emitTwo_prog (b0 b1 : Byte) (s : State) : (emitTwo b0 b1 s).prog = s.prog := rfl
@[simp] theorem emitTwo_input (b0 b1 : Byte) (s : State) : (emitTwo b0 b1 s).input = s.input := rfl
@[simp] theorem emitTwo_outOk (b0 b1 : Byte) (s : State) : (emitTwo b0 b1 s).outOk = s.outOk := rfl
@[simp] theorem emitTwo_draws (b0 b1 : Byte) (s : State) : (emitTwo b0 b1 s).draws = s.draws := rfl

/-! ### failOutput -/

@[simp] theorem failOutput_ac (b0 : Byte) (s : State) : (failOutput b0 s).ac = s.ac := rfl
@[simp] theorem failOutput_pc (b0 : Byte) (s : State) : (failOutput b0 s).pc = s.pc := rfl
@[simp] theorem failOutput_mem (b0 : Byte) (s : State) : (failOutput b0 s).mem = s.mem := rfl
@[simp] theorem failOutput_inPos (b0 : Byte) (s : State) : (failOutput b0 s).inPos = s.inPos := rfl
@[simp] theorem failOutput_out (b0 : Byte) (s : State) : (failOutput b0 s).out = s.out ++ failedOutputBytes b0 s := rfl
@[simp] theorem failOutput_status (b0 : Byte) (s : State) : (failOutput b0 s).status = .faulted := rfl
@[simp] theorem failOutput_fault (b0 : Byte) (s : State) : (failOutput b0 s).fault = some (.streamFault .output) := rfl
@[simp] theorem failOutput_prog (b0 : Byte) (s : State) : (failOutput b0 s).prog = s.prog := rfl
@[simp] theorem failOutput_input (b0 : Byte) (s : State) : (failOutput b0 s).input = s.input := rfl
@[simp] theorem failOutput_outOk (b0 : Byte) (s : State) : (failOutput b0 s).outOk = s.outOk := rfl
@[simp] theorem failOutput_draws (b0 : Byte) (s : State) : (failOutput b0 s).draws = s.draws + 1 := rfl

end Sys2Proof.Machine
end

