-- ==== Sys2Proof/Laws/Ops.lean ====
section
/-! SUPPORT. What each shared operation does, said once. -/

namespace Sys2Proof.Machine

/-! ### Operands -/

@[simp] theorem directAddr_toNat (arg : Arg) : (directAddr arg).toNat = arg.toNat := by
  have := arg.isLt
  simp only [directAddr, BitVec.toNat_setWidth]
  omega

/-- A direct address is always in range (R34). -/
@[simp] theorem inRange_directAddr (arg : Arg) : inRange (directAddr arg) = true := by
  have := arg.isLt
  simp only [inRange, Config.memWords, directAddr_toNat, decide_eq_true_eq]
  omega

theorem inRange_iff (addr : Word) : inRange addr = true ↔ addr.toNat < 4096 := by
  simp [inRange, Config.memWords]

theorem wordOfBytes_toNat (b0 b1 : Byte) : (wordOfBytes b0 b1).toNat = b1.toNat * 256 + b0.toNat := by
  have h := BitVec.toNat_append b1 b0
  have := b0.isLt
  rw [← Nat.shiftLeft_add_eq_or_of_lt (by omega), Nat.shiftLeft_eq] at h
  exact h

theorem lowByte_toNat (w : Word) : (lowByte w).toNat = w.toNat % 256 := by
  simp [lowByte, BitVec.extractLsb'_toNat]

theorem highByte_toNat (w : Word) : (highByte w).toNat = w.toNat / 256 := by
  have := w.isLt
  simp only [highByte, BitVec.extractLsb'_toNat, Nat.shiftRight_eq_div_pow]
  omega

@[simp] theorem lowByte_wordOfBytes (b0 b1 : Byte) : lowByte (wordOfBytes b0 b1) = b0 := by
  apply BitVec.eq_of_toNat_eq
  have := b0.isLt
  rw [lowByte_toNat, wordOfBytes_toNat]
  omega

@[simp] theorem highByte_wordOfBytes (b0 b1 : Byte) : highByte (wordOfBytes b0 b1) = b1 := by
  apply BitVec.eq_of_toNat_eq
  have := b0.isLt
  rw [highByte_toNat, wordOfBytes_toNat]
  omega

@[simp] theorem wordOfBytes_bytes (w : Word) : wordOfBytes (lowByte w) (highByte w) = w := by
  apply BitVec.eq_of_toNat_eq
  rw [wordOfBytes_toNat, lowByte_toNat, highByte_toNat]
  omega

/-! ### Arithmetic -/

theorem addWord_eq (a b : Word) : addWord a b = a + b := rfl

theorem subWord_eq (a b : Word) : subWord a b = a - b := by
  apply BitVec.eq_of_toNat_eq
  have := a.isLt
  have := b.isLt
  simp [subWord, BitVec.toNat_sub]
  omega

/-! ### Memory accesses -/

theorem memRead_inRange (opcode : Opcode) (arg : Arg) {addr : Word} (s : State) (h : addr.toNat < 4096) :
    memRead opcode arg addr s = .ok (s.mem.read addr.toNat) := by
  simp [memRead, inRange_iff, h]

theorem memRead_outOfRange (opcode : Opcode) (arg : Arg) {addr : Word} (s : State) (h : 4096 ≤ addr.toNat) :
    memRead opcode arg addr s = .error (.addressOutOfRange opcode arg addr) := by
  simp [memRead, inRange_iff, Nat.not_lt.2 h]

theorem memWrite_inRange (opcode : Opcode) (arg : Arg) {addr : Word} (v : Word) (s : State) (h : addr.toNat < 4096) :
    memWrite opcode arg addr v s = .ok (setCell addr.toNat v s) := by
  simp [memWrite, inRange_iff, h]

theorem memWrite_outOfRange (opcode : Opcode) (arg : Arg) {addr : Word} (v : Word) (s : State)
    (h : 4096 ≤ addr.toNat) :
    memWrite opcode arg addr v s = .error (.addressOutOfRange opcode arg addr) := by
  simp [memWrite, inRange_iff, Nat.not_lt.2 h]

theorem withOperand_inRange (opcode : Opcode) (arg : Arg) {addr : Word} (s : State) (k : Word → Result)
    (h : addr.toNat < 4096) : withOperand opcode arg addr s k = k (s.mem.read addr.toNat) := by
  rw [withOperand, memRead_inRange opcode arg s h]

theorem withOperand_outOfRange (opcode : Opcode) (arg : Arg) {addr : Word} (s : State) (k : Word → Result)
    (h : 4096 ≤ addr.toNat) :
    withOperand opcode arg addr s k = .next (raise (.addressOutOfRange opcode arg addr) s) := by
  rw [withOperand, memRead_outOfRange opcode arg s h]

theorem withOperand_direct (opcode : Opcode) (arg : Arg) (s : State) (k : Word → Result) :
    withOperand opcode arg (directAddr arg) s k = k (s.mem.read (directAddr arg).toNat) :=
  withOperand_inRange opcode arg s k ((inRange_iff _).1 (inRange_directAddr arg))

theorem withStore_inRange (opcode : Opcode) (arg : Arg) {addr : Word} (v : Word) (s : State) (k : State → Result)
    (h : addr.toNat < 4096) : withStore opcode arg addr v s k = k (setCell addr.toNat v s) := by
  rw [withStore, memWrite_inRange opcode arg v s h]

theorem withStore_outOfRange (opcode : Opcode) (arg : Arg) {addr : Word} (v : Word) (s : State) (k : State → Result)
    (h : 4096 ≤ addr.toNat) :
    withStore opcode arg addr v s k = .next (raise (.addressOutOfRange opcode arg addr) s) := by
  rw [withStore, memWrite_outOfRange opcode arg v s h]

theorem withStore_direct (opcode : Opcode) (arg : Arg) (v : Word) (s : State) (k : State → Result) :
    withStore opcode arg (directAddr arg) v s k = k (setCell (directAddr arg).toNat v s) :=
  withStore_inRange opcode arg v s k ((inRange_iff _).1 (inRange_directAddr arg))

theorem accumulate_eq (op : Word → Word → Word) (opcode : Opcode) (arg : Arg) (s : State) :
    accumulate op opcode arg s = .next (advance (setAc (op s.ac (s.mem.read (directAddr arg).toNat)) s)) :=
  withOperand_direct opcode arg s _

/-! ### Streams -/

/-- A source that goes on has a byte at every position past its list, one that ends has none (R17). -/
theorem InStream.tail_byteAt?_isSome (i : InStream) (q : Nat) : (i.tail.byteAt? q).isSome = i.endless := by
  unfold InStream.endless
  cases i.tail with
  | ends => rfl
  | unknown source => rfl
  | repeats first rest => simpa [InTail.byteAt?] using Nat.le_of_lt_succ (Nat.mod_lt q (Nat.succ_pos rest.length))

/-- Inside its list a source has the listed byte. -/
theorem InStream.byteAt?_listed (i : InStream) {p : Nat} (h : p < i.bytes.length) : i.byteAt? p = i.bytes[p]? := by
  simp [InStream.byteAt?, List.getElem?_eq_getElem h]

/-- Past its list a source has the byte of its tail. -/
theorem InStream.byteAt?_tail (i : InStream) (q : Nat) : i.byteAt? (i.bytes.length + q) = i.tail.byteAt? q := by
  simp [InStream.byteAt?]

/-- Where a source has a byte: inside its list, and everywhere when it is endless (R17). -/
theorem InStream.byteAt?_isSome_iff (i : InStream) (p : Nat) :
    (i.byteAt? p).isSome = true ↔ p < i.bytes.length ∨ i.endless = true := by
  by_cases h : p < i.bytes.length
  · simp [i.byteAt?_listed h, h]
  · obtain ⟨q, rfl⟩ := Nat.exists_eq_add_of_le (Nat.not_lt.1 h)
    rw [i.byteAt?_tail, i.tail_byteAt?_isSome]
    simp

/-- A source that has a byte at a position has one at every position before it (R17). -/
theorem InStream.byteAt?_isSome_of_le (i : InStream) {p q : Nat} (hpq : p ≤ q) (h : (i.byteAt? q).isSome) :
    (i.byteAt? p).isSome :=
  (i.byteAt?_isSome_iff p).2 (((i.byteAt?_isSome_iff q).1 h).imp_left (Nat.lt_of_le_of_lt hpq))

/-- A finite source has its listed bytes and no other (R17). -/
theorem InStream.byteAt?_finite (i : InStream) (h : i.endless = false) (p : Nat) : i.byteAt? p = i.bytes[p]? := by
  by_cases hp : p < i.bytes.length
  · exact i.byteAt?_listed hp
  · have hn := mt (i.byteAt?_isSome_iff p).1 (by simp [hp, h])
    rw [List.getElem?_eq_none (Nat.not_lt.1 hp)]
    simpa using hn

/-- An endless source has a byte everywhere (R17). -/
theorem InStream.byteAt?_endless (i : InStream) (h : i.endless = true) (p : Nat) : (i.byteAt? p).isSome :=
  (i.byteAt?_isSome_iff p).2 (.inr h)

theorem nextTwoBytes_eq_some {s : State} {b0 b1 : Byte} :
    nextTwoBytes s = some (b0, b1) ↔
      s.input.byteAt? s.inPos = some b0 ∧ s.input.byteAt? (s.inPos + 1) = some b1 := by
  unfold nextTwoBytes
  cases s.input.byteAt? s.inPos <;> cases s.input.byteAt? (s.inPos + 1) <;> simp

/-- Fewer than two bytes remain exactly when there is no byte at `in_pos + 1` (R17). -/
theorem nextTwoBytes_eq_none {s : State} : nextTwoBytes s = none ↔ s.input.byteAt? (s.inPos + 1) = none := by
  constructor
  · intro h
    cases h1 : s.input.byteAt? (s.inPos + 1) with
    | none => rfl
    | some b1 =>
      have h0 := s.input.byteAt?_isSome_of_le (Nat.le_succ s.inPos) (by rw [h1]; rfl)
      obtain ⟨b0, h0⟩ := Option.isSome_iff_exists.1 h0
      rw [nextTwoBytes_eq_some.2 ⟨h0, h1⟩] at h
      cases h
  · intro h
    unfold nextTwoBytes
    rw [h]
    cases s.input.byteAt? s.inPos <;> rfl

/-- A failed INPUT consumes at most the one byte that was left (R17). -/
theorem failedInputCount_cases (s : State) :
    failedInputCount s = 0 ∨ (failedInputCount s = 1 ∧ (s.input.byteAt? s.inPos).isSome) := by
  unfold failedInputCount
  split
  · rename_i h
    exact .inr ⟨rfl, (Bool.and_eq_true _ _ ▸ h).1⟩
  · exact .inl rfl

/-- A failed OUTPUT emits nothing or its first byte (R18). -/
theorem failedOutputBytes_cases (b0 : Byte) (s : State) :
    failedOutputBytes b0 s = [] ∨ failedOutputBytes b0 s = [b0] := by
  unfold failedOutputBytes
  split
  · exact .inr rfl
  · exact .inl rfl

/-! ### The program store -/

/-- The fetch finds no word exactly when the termination check holds (R72). -/
theorem fetch_eq_none {s : State} : fetch s = none ↔ s.prog.length ≤ s.pc.toNat := by
  simp [fetch]

theorem placeWord_getElem? (prog : List Word) (offset : Nat) (w : Word) : (placeWord prog offset w)[offset]? = some w := by
  unfold placeWord
  split
  · rename_i h; simp [h]
  · rename_i h
    rw [List.getElem?_append_right (by simp; omega)]
    have : offset - (prog ++ List.replicate (offset - prog.length) 0x0000#16).length = 0 := by simp; omega
    rw [this]
    rfl

end Sys2Proof.Machine
end

