-- ==== Sys2Proof/Laws/PerInstr.lean ====
section
/-! SUPPORT. Statements made per instruction: the encoder's word of an instruction decodes to it. -/

namespace Sys2Proof.Laws.RoundTrip

/-- Decoding the word of an instruction gives the instruction back (R52, R61). -/
def Statement (i : Instr) : Prop := decode (encode i) = .ok i

theorem jns (arg : Arg) : Statement (.jns arg) := decode_append _ arg

theorem load (arg : Arg) : Statement (.load arg) := decode_append _ arg

theorem store (arg : Arg) : Statement (.store arg) := decode_append _ arg

theorem add (arg : Arg) : Statement (.add arg) := decode_append _ arg

theorem sub (arg : Arg) : Statement (.sub arg) := decode_append _ arg

theorem input (arg : Arg) : Statement (.input arg) := decode_append _ arg

theorem output (arg : Arg) : Statement (.output arg) := decode_append _ arg

theorem halt (arg : Arg) : Statement (.halt arg) := decode_append _ arg

theorem skipcond (arg : Arg) : Statement (.skipcond arg) := decode_append _ arg

theorem clear (arg : Arg) : Statement (.clear arg) := decode_append _ arg

theorem jump (arg : Arg) : Statement (.jump arg) := decode_append _ arg

theorem addi (arg : Arg) : Statement (.addi arg) := decode_append _ arg

theorem jumpi (arg : Arg) : Statement (.jumpi arg) := decode_append _ arg

theorem loadi (arg : Arg) : Statement (.loadi arg) := decode_append _ arg

theorem storei (arg : Arg) : Statement (.storei arg) := decode_append _ arg

end Sys2Proof.Laws.RoundTrip
end

