-- ==== Sys2Proof/Laws/Step.lean ====
section
/-! SUPPORT. Everything an instruction and a step can do, said once. -/

namespace Sys2Proof.Machine

/-- Every way an instruction can go on: the state it answers, and for the ways that only some instructions have, which
instruction it was and what it found. -/
theorem exec_next_cases {i : Instr} {s t : State} (h : exec i s = .next t) :
    (∃ v, t = advance (setAc v s)) ∨
    (∃ a v, a < 4096 ∧ t = advance (setCell a v s)) ∨
    (∃ a v target, a < 4096 ∧ t = jumpTo target (setCell a v s)) ∨
    (∃ target, t = jumpTo target s) ∨
    (∃ arg, i = .halt arg ∧ t = haltRun s) ∨
    (∃ arg b0 b1, i = .input arg ∧ nextTwoBytes s = some (b0, b1) ∧
      t = advance (setAc (wordOfBytes b0 b1) (consumeTwo s))) ∨
    (∃ arg, i = .input arg ∧ nextTwoBytes s = none ∧ t = failInput s) ∨
    (∃ arg, i = .output arg ∧ sinkAccepts s = true ∧
      t = advance (emitTwo (lowByte s.ac) (highByte s.ac) s)) ∨
    (∃ arg, i = .output arg ∧ sinkAccepts s = false ∧ t = failOutput (lowByte s.ac) s) ∨
    (∃ arg ptr, i = .loadi arg ∧ s.mem.read (directAddr arg).toNat = ptr ∧ 4096 ≤ ptr.toNat ∧
      t = raise (.addressOutOfRange 0xD#4 arg ptr) s) ∨
    (∃ arg ptr, i = .storei arg ∧ s.mem.read (directAddr arg).toNat = ptr ∧ 4096 ≤ ptr.toNat ∧
      t = raise (.addressOutOfRange 0xE#4 arg ptr) s) := by
  have hdirect : ∀ arg : Arg, (directAddr arg).toNat < 4096 := fun arg => by
    rw [directAddr_toNat]; exact arg.isLt
  cases i with
  | load arg =>
    rw [exec, execLoad, withOperand_direct] at h
    cases h; exact .inl ⟨_, rfl⟩
  | add arg =>
    rw [exec, execAdd, accumulate_eq] at h
    cases h; exact .inl ⟨_, rfl⟩
  | sub arg =>
    rw [exec, execSub, accumulate_eq] at h
    cases h; exact .inl ⟨_, rfl⟩
  | addi arg =>
    rw [exec, execAddi, accumulate_eq] at h
    cases h; exact .inl ⟨_, rfl⟩
  | clear arg => cases h; exact .inl ⟨_, rfl⟩
  | store arg =>
    rw [exec, execStore, withStore_direct] at h
    cases h; exact .inr (.inl ⟨_, _, hdirect arg, rfl⟩)
  | jns arg =>
    rw [exec, execJns, withStore_direct] at h
    cases h; exact .inr (.inr (.inl ⟨_, _, _, hdirect arg, rfl⟩))
  | jump arg => cases h; exact .inr (.inr (.inr (.inl ⟨_, rfl⟩)))
  | jumpi arg =>
    rw [exec, execJumpi, withOperand_direct] at h
    cases h; exact .inr (.inr (.inr (.inl ⟨_, rfl⟩)))
  | skipcond arg =>
    simp only [exec, execSkipcond, Host.Outcome.next.injEq] at h
    refine .inr (.inr (.inr (.inl ⟨t.pc, ?_⟩)))
    subst h
    split <;> rfl
  | halt arg => cases h; exact .inr (.inr (.inr (.inr (.inl ⟨arg, rfl, rfl⟩))))
  | input arg =>
    simp only [exec, execInput] at h
    split at h
    · rename_i b0 b1 hb
      cases h; exact .inr (.inr (.inr (.inr (.inr (.inl ⟨arg, b0, b1, rfl, hb, rfl⟩)))))
    · rename_i hb
      cases h; exact .inr (.inr (.inr (.inr (.inr (.inr (.inl ⟨arg, rfl, hb, rfl⟩))))))
  | output arg =>
    simp only [exec, execOutput] at h
    split at h
    · rename_i hb
      cases h; exact .inr (.inr (.inr (.inr (.inr (.inr (.inr (.inl ⟨arg, rfl, hb, rfl⟩)))))))
    · rename_i hb
      cases h
      exact .inr (.inr (.inr (.inr (.inr (.inr (.inr (.inr (.inl ⟨arg, rfl, by simpa using hb, rfl⟩))))))))
  | loadi arg =>
    rw [exec, execLoadi, withOperand_direct] at h
    by_cases hp : (s.mem.read (directAddr arg).toNat).toNat < 4096
    · rw [withOperand_inRange _ _ _ _ hp] at h
      cases h; exact .inl ⟨_, rfl⟩
    · rw [withOperand_outOfRange _ _ _ _ (by omega)] at h
      cases h
      exact .inr (.inr (.inr (.inr (.inr (.inr (.inr (.inr (.inr (.inl ⟨arg, _, rfl, rfl, by omega, rfl⟩)))))))))
  | storei arg =>
    rw [exec, execStorei, withOperand_direct] at h
    by_cases hp : (s.mem.read (directAddr arg).toNat).toNat < 4096
    · rw [withStore_inRange _ _ _ _ _ hp] at h
      cases h; exact .inr (.inl ⟨_, _, hp, rfl⟩)
    · rw [withStore_outOfRange _ _ _ _ _ (by omega)] at h
      cases h
      exact .inr (.inr (.inr (.inr (.inr (.inr (.inr (.inr (.inr (.inr ⟨arg, _, rfl, rfl, by omega, rfl⟩)))))))))

/-- Every way a step can go on: it runs from RUNNING only, and it ends the run, runs one instruction or raises
UnknownOpcode (R70). -/
theorem step_next_cases {s t : State} (h : step s = .next t) :
    s.status = .running ∧
      ((fetch s = none ∧ t = endRun s) ∨
       (∃ w i, fetch s = some w ∧ decode w = .ok i ∧ exec i s = .next t) ∨
       (∃ w, fetch s = some w ∧ opcodeField w = 0xF#4 ∧ t = raise (.unknownOpcode 0xF#4) s)) := by
  unfold step at h
  split at h <;> try cases h
  rename_i hr
  refine ⟨hr, ?_⟩
  unfold runCycle at h
  split at h
  · rename_i hf
    cases h; exact .inl ⟨hf, rfl⟩
  · rename_i w hf
    unfold runWord at h
    split at h
    · rename_i i hd
      exact .inr (.inl ⟨w, i, hf, hd, h⟩)
    · rename_i op hd
      obtain ⟨ho, he⟩ := decode_eq_error hd
      cases he
      cases h
      exact .inr (.inr ⟨w, hf, ho, rfl⟩)

end Sys2Proof.Machine
end

