-- ==== Sys2Proof/Laws/Run.lean ====
section
/-! SUPPORT. Runs: one step at a time, and the induction over a run packaged once. -/

namespace Sys2Proof.Machine

theorem reaches_zero {s t : State} : Reaches 0 s t ↔ t = s := Iff.rfl

theorem reaches_succ {k : Nat} {s t : State} : Reaches (k + 1) s t ↔ ∃ u, step s = .next u ∧ Reaches k u t := Iff.rfl

/-- What every step keeps holds along every run. -/
theorem reaches_induction {P : State → Prop} (hstep : ∀ s t, P s → step s = .next t → P t) {k : Nat} {s t : State}
    (hs : P s) (h : Reaches k s t) : P t := by
  induction k generalizing s with
  | zero => exact reaches_zero.1 h ▸ hs
  | succ k ih =>
    obtain ⟨u, hu, hr⟩ := reaches_succ.1 h
    exact ih (hstep s u hs hu) hr

end Sys2Proof.Machine
end

