-- ==== Sys2Proof/Tests/Slice0.lean ====
section
/-! SUPPORT. The model's own tests.  Expected results are the spec's: 30_encoding.md section 5 for the words, the vectors of
95_test_vectors.md (named in each comment) for the steps; then a witness for the hypotheses of every statement. -/

namespace Sys2Proof.Tests

open Sys2Proof Sys2Proof.Machine

/-- A running machine. -/
def machine (prog : List Word) (ac pc : Word) (mem : Memory) : State :=
  { State.reset with prog := prog, ac := ac, pc := pc, mem := mem }

/-- A running machine with an input source. -/
def reader (bytes : List Byte) (inPos : Nat) : State :=
  { machine [0x5000#16] 0x7777#16 0 [] with input := ⟨bytes, .ends⟩, inPos := inPos }

/-- A running machine with something written to `out` and a sink. -/
def writer (ac : Word) (out : List Byte) (outOk : List Bool) : State :=
  { machine [0x6000#16] ac 0 [] with out := out, outOk := outOk }

/-- Whether a result is a next state that passes a check. -/
def answers (r : Result) (p : State → Bool) : Bool :=
  match r with
  | .next t => p t
  | .fault _ => false
  | .refused _ => false

theorem answers_next {r : Result} {p : State → Bool} (h : answers r p = true) : ∃ t, r = .next t ∧ p t = true := by
  cases r with
  | next t => exact ⟨t, rfl, h⟩
  | fault f => cases h
  | refused f => cases h

/-! ### Decoding: every constructor's word, bit by bit from the opcode map (R53; 30_encoding.md section 5) -/

theorem test_decode_jns : decode 0b0000000000010000#16 = .ok (.jns 0x010#12) := by decide
theorem test_decode_load : decode 0b0001000000000001#16 = .ok (.load 0x001#12) := by decide
theorem test_decode_store : decode 0b0010111111111111#16 = .ok (.store 0xFFF#12) := by decide
theorem test_decode_add : decode 0b0011000000000011#16 = .ok (.add 0x003#12) := by decide
theorem test_decode_sub : decode 0b0100000000000100#16 = .ok (.sub 0x004#12) := by decide
theorem test_decode_input : decode 0b0101000000000000#16 = .ok (.input 0x000#12) := by decide
theorem test_decode_output : decode 0b0110000000000000#16 = .ok (.output 0x000#12) := by decide
theorem test_decode_halt : decode 0b0111101010111100#16 = .ok (.halt 0xABC#12) := by decide
theorem test_decode_skipcond : decode 0b1000010000000000#16 = .ok (.skipcond 0x400#12) := by decide
theorem test_decode_clear : decode 0b1001000000000000#16 = .ok (.clear 0x000#12) := by decide
theorem test_decode_jump : decode 0b1010000000001001#16 = .ok (.jump 0x009#12) := by decide
theorem test_decode_addi : decode 0b1011000001000000#16 = .ok (.addi 0x040#12) := by decide
theorem test_decode_jumpi : decode 0b1100000000010000#16 = .ok (.jumpi 0x010#12) := by decide
theorem test_decode_loadi : decode 0b1101000000110001#16 = .ok (.loadi 0x031#12) := by decide
theorem test_decode_storei : decode 0b1110101010111100#16 = .ok (.storei 0xABC#12) := by decide
theorem test_decode_unknown : decode 0b1111000100100011#16 = .error (.unknownOpcode 0xF#4) := by decide
theorem test_decode_last_known : decode 0xEFFF#16 = .ok (.storei 0xFFF#12) := by decide
theorem test_table_word : decodeTableWord 16 0x8800 = some (.skipcond 0x800#12) := by decide
theorem test_table_word_too_wide : decodeTableWord 32 0x8800 = none := by decide

/-! ### Well-formedness: each check refuses an ill-formed term (R57, R51, R4) -/

theorem test_listing_reserved_tag_refused : Listing.wellFormed ⟨.hex, 0⟩ = false := by decide
theorem test_listing_wide_argument_refused : Listing.wellFormed ⟨.load, 4096⟩ = false := by decide
theorem test_listing_word : Listing.word? ⟨.skipcond, 0x800⟩ = some 0x8800#16 := by decide
theorem test_program_too_long_refused : programWellFormed (List.replicate 65536 0x0000#16) = false := by
  unfold programWellFormed
  rw [List.length_replicate]
  decide
theorem test_image_wrong_length_refused : imageWellFormed [0x0000#16] = false := by decide
theorem test_memory_zero_entry_refused : Memory.wf [(3, 0x0000#16)] = false := by decide
theorem test_memory_unsorted_refused : Memory.wf [(4, 1#16), (3, 1#16)] = false := by decide
theorem test_memory_outside_refused : Memory.wf [(4096, 1#16)] = false := by decide

/-! ### One step per instruction (95_test_vectors.md section 2) -/

-- LS1: the last cell, the sign bit copied.
theorem test_load_last_cell : answers (exec (.load 0xFFF#12) (machine [] 0 0 [(0xFFF, 0x8000#16)]))
    (fun t => t.ac == 0x8000#16 && t.pc == 1#16) = true := by decide
-- LS2: a cell never written.
theorem test_load_unwritten : answers (exec (.load 0x123#12) (machine [] 5 0 [])) (fun t => t.ac == 0#16) = true := by decide
-- LS4: the neighbours unchanged.
theorem test_store_last_cell : answers (exec (.store 0xFFF#12) (machine [] 0x1234#16 0 [(0xFFF, 0x5555#16)]))
    (fun t => t.mem == [(0xFFF, 0x1234#16)] && t.ac == 0x1234#16 && t.pc == 1#16) = true := by decide
-- Storing zero removes the entry.
theorem test_store_zero_canonical : answers (exec (.store 0x010#12) (machine [] 0 0 [(0x00F, 1#16), (0x010, 2#16)]))
    (fun t => t.mem == [(0x00F, 1#16)]) = true := by decide
-- LS9: one level only.
theorem test_loadi_one_level :
    answers (exec (.loadi 0x020#12) (machine [] 0 0 [(0x020, 0x0021#16), (0x021, 0x0022#16), (0x022, 0x0099#16)]))
      (fun t => t.ac == 0x0022#16) = true := by decide
-- LS6: the pointer is not masked.
theorem test_loadi_out_of_range : answers (exec (.loadi 0x020#12) (machine [] 0x7777#16 9 [(0x020, 0x1000#16)]))
    (fun t => t.status == .faulted && t.fault == some (.addressOutOfRange 0xD#4 0x020#12 0x1000#16) &&
      t.ac == 0x7777#16 && t.pc == 9#16) = true := by decide
-- LS13: the pointer cell overwrites itself.
theorem test_storei_self : answers (exec (.storei 0x030#12) (machine [] 0x1234#16 0 [(0x030, 0x0030#16)]))
    (fun t => t.mem == [(0x030, 0x1234#16)]) = true := by decide
-- LS12: a negative pointer.
theorem test_storei_negative_pointer : answers (exec (.storei 0x030#12) (machine [] 0xCAFE#16 4 [(0x030, 0x8000#16)]))
    (fun t => t.fault == some (.addressOutOfRange 0xE#4 0x030#12 0x8000#16) && t.mem == [(0x030, 0x8000#16)] &&
      t.pc == 4#16) = true := by decide
-- A2, A7.
theorem test_add_overflow : answers (exec (.add 0x100#12) (machine [] 0x7FFF#16 0 [(0x100, 0x0001#16)]))
    (fun t => t.ac == 0x8000#16) = true := by decide
theorem test_add_wrap : answers (exec (.add 0x100#12) (machine [] 0x1234#16 0 [(0x100, 0xF00D#16)]))
    (fun t => t.ac == 0x0241#16) = true := by decide
-- A8, A10.
theorem test_sub_operand_order : answers (exec (.sub 0x100#12) (machine [] 0x00FA#16 0 [(0x100, 0x0005#16)]))
    (fun t => t.ac == 0x00F5#16) = true := by decide
theorem test_sub_most_negative : answers (exec (.sub 0x100#12) (machine [] 0 0 [(0x100, 0x8000#16)]))
    (fun t => t.ac == 0x8000#16) = true := by decide
-- A15, A17: the operand is the cell, neither the literal nor a pointer.
theorem test_addi_direct : answers (exec (.addi 0x100#12) (machine [] 0x0015#16 0 [(0x015, 9#16), (0x100, 0x0015#16)]))
    (fun t => t.ac == 0x002A#16) = true := by decide
-- A19.
theorem test_clear_unused_argument : answers (exec (.clear 0xABC#12) (machine [] 0xBEEF#16 2 [(0xABC, 7#16)]))
    (fun t => t.ac == 0#16 && t.pc == 3#16 && t.mem == [(0xABC, 7#16)]) = true := by decide
-- Section 2.3: AC = 0x8000 is negative; J3: PC + 2 wraps at 65534; the selector is compared whole.
theorem test_skipcond_negative_wraps : answers (exec (.skipcond 0x000#12) (machine [] 0x8000#16 0xFFFE#16 []))
    (fun t => t.pc == 0#16) = true := by decide
theorem test_skipcond_whole_selector : answers (exec (.skipcond 0x801#12) (machine [] 0x0001#16 10 []))
    (fun t => t.pc == 11#16) = true := by decide
-- J6; J10; J13; J14.
theorem test_jump : answers (exec (.jump 0xFFF#12) (machine [] 0 0 [])) (fun t => t.pc == 0x0FFF#16) = true := by decide
theorem test_jumpi_not_masked : answers (exec (.jumpi 0x040#12) (machine [] 0 0 [(0x040, 0xFFFF#16)]))
    (fun t => t.pc == 0xFFFF#16 && t.status == .running) = true := by decide
theorem test_jns_own_offset : answers (exec (.jns 0x000#12) (machine [] 0x0055#16 7 [(0, 0x0002#16)]))
    (fun t => t.mem == [(0, 0x0007#16)] && t.pc == 0#16 && t.ac == 0x0055#16) = true := by decide
theorem test_jns_high_offset : answers (exec (.jns 0x123#12) (machine [] 0 0x9000#16 []))
    (fun t => t.mem == [(0x123, 0x9000#16)] && t.pc == 0x0123#16) = true := by decide
-- IO5, IO6.
theorem test_input_second_pair : answers (exec (.input 0#12) (reader [1#8, 2#8, 3#8, 4#8] 2))
    (fun t => t.ac == 0x0403#16 && t.inPos == 4 && t.pc == 1#16) = true := by decide
theorem test_input_one_byte_left : answers (exec (.input 0#12) (reader [0x34#8] 0))
    (fun t => t.status == .faulted && t.fault == some (.streamFault .input) && t.ac == 0x7777#16 && t.pc == 0#16) = true := by
  decide
-- A source that goes round 21 0A after its listed byte: INPUT reads it across the end of the list.
theorem test_input_repeating_source :
    answers (exec (.input 0#12) { reader [] 2 with input := ⟨[0x48#8], .repeats 0x21#8 [0x0A#8]⟩ })
      (fun t => t.ac == 0x210A#16 && t.inPos == 4) = true := by decide
-- IO10, IO13.
theorem test_output_appends : answers (exec (.output 0#12) (writer 0xFE01#16 [0x34#8, 0x12#8] []))
    (fun t => t.out == [0x34#8, 0x12#8, 0x01#8, 0xFE#8] && t.pc == 1#16) = true := by decide
theorem test_output_second_refused : answers (exec (.output 0#12) (writer 0x1234#16 [0x21#8, 0x0A#8] [true, false]))
    (fun t => t.fault == some (.streamFault .output) && t.ac == 0x1234#16 && t.pc == 0#16) = true := by decide
-- H1.
theorem test_halt : answers (exec (.halt 0xABC#12) (machine [] 0x0042#16 4 []))
    (fun t => t.status == .halted && t.pc == 4#16 && t.ac == 0x0042#16 && t.fault == none) = true := by decide

/-! ### The step (95_test_vectors.md section 2.5) -/

-- F1: nothing but status and fault changes.
theorem test_step_unknown_opcode : answers (step (machine [0xF123#16] 0 0 []))
    (fun t => t.status == .faulted && t.fault == some (.unknownOpcode 0xF#4) && t.pc == 0#16) = true := by decide
-- T1: the empty program ends at once; this is the step from reset with nothing loaded.
theorem test_step_from_reset_ends : answers (step State.reset) (fun t => t.status == .ended && t.pc == 0#16) = true := by
  decide
-- The word placed by the loader is the next instruction.
theorem test_placed_word_runs : answers (step ((machine [] 9 3 []).withFetchWord 16 0x9000))
    (fun t => t.ac == 0#16 && t.pc == 4#16) = true := by decide

/-! ### Witnesses: a state and operands that meet the hypotheses of each statement -/

-- DecodeSplitsWord, EncodeOfDecodeIsWord, ReservedTagsUnreachableNoOps: test_decode_*.
-- UnknownOpcodeExactlyAboveF000: test_decode_last_known, and
theorem witness_unknown_opcode_first :
    (machine [0xF000#16] 0 0 []).status = .running ∧ fetch (machine [0xF000#16] 0 0 []) = some 0xF000#16 ∧
      0xF000 ≤ (0xF000#16).toNat := by decide
theorem witness_unknown_opcode_last :
    fetch (machine [0xFFFF#16] 0 0 []) = some 0xFFFF#16 ∧ 0xF000 ≤ (0xFFFF#16).toNat := by decide
-- StepRunsDecodedInstruction, StepEndsOrRunsOneInstruction
theorem witness_step_runs :
    (machine [0x9000#16] 0 0 []).status = .running ∧
      (machine [0x9000#16] 0 0 []).prog[(machine [0x9000#16] 0 0 []).pc.toNat]? = some 0x9000#16 ∧
      decode 0x9000#16 = .ok (.clear 0x000#12) := by decide
-- PlacedWordIsNextInstruction: test_table_word.
-- EndOfProgramEndsRun, at the boundary u(PC) = L and with L = 0
theorem witness_end_of_program :
    (machine [0x9000#16] 0 1 []).status = .running ∧
      (machine [0x9000#16] 0 1 []).prog.length ≤ (machine [0x9000#16] 0 1 []).pc.toNat := by decide
theorem witness_empty_program : State.reset.status = .running ∧ State.reset.prog.length ≤ State.reset.pc.toNat := by decide
-- TerminalStatusHasNoStep, each terminal status, and its second clause
theorem witness_terminal :
    (haltRun State.reset).status ≠ .running ∧ (endRun State.reset).status ≠ .running ∧
      (raise (.unknownOpcode 0xF#4) State.reset).status ≠ .running := by decide
theorem witness_terminal_reaches : Reaches 0 (haltRun State.reset) (haltRun State.reset) := rfl
-- NextPcTable: a running end and a halted end
theorem witness_next_pc_running :
    ∃ t, exec (.jump 0xFFF#12) (machine [] 0 0 []) = .next t ∧ decide (t.status = .running) = true :=
  answers_next (by decide)
theorem witness_next_pc_halted :
    ∃ t, exec (.halt 0#12) (machine [] 0 4 []) = .next t ∧ decide (t.status ≠ .running) = true :=
  answers_next (by decide)
-- MemReadChecksRangeFirst, MemWriteChangesOneCell: both sides of the range
theorem witness_range : 4096 ≤ (0x1000#16).toNat ∧ (0x0FFF#16).toNat < 4096 := by decide
-- MemoryWriteKeepsCanonicalForm
theorem witness_canonical : 4095 < 4096 ∧ Memory.wf [(0, 1#16), (4095, 2#16)] = true := by decide
theorem witness_canonical_same_reads :
    ∀ a, Memory.read (Memory.write [] 3 1#16) a = Memory.read [(3, 1#16)] a := fun _ => rfl
theorem witness_image : (List.replicate 4096 0x0001#16).length ≤ 4096 :=
  List.length_replicate.le
-- MemoryChangesOnlyByStores: each of the three
theorem witness_store_changes :
    ∃ t, exec (.store 0xFFF#12) (machine [] 1 0 []) = .next t ∧ decide (t.mem.read 0xFFF ≠ 0#16) = true :=
  answers_next (by decide)
theorem witness_jns_changes :
    ∃ t, exec (.jns 0x010#12) (machine [] 0 7 []) = .next t ∧ decide (t.mem.read 0x010 ≠ 0#16) = true :=
  answers_next (by decide)
theorem witness_storei_changes :
    ∃ t, exec (.storei 0x030#12) (machine [] 1 0 [(0x030, 0x0FFF#16)]) = .next t ∧
      decide (t.mem.read 0xFFF ≠ 0#16) = true :=
  answers_next (by decide)
-- ProgramAndStreamsParametersConstant, OutputRecordIsNeverRead
theorem witness_step_next :
    ∃ t, step (machine [0x9000#16] 3 0 []) = .next t ∧ decide (State.reset.outOk = []) = true :=
  answers_next (by decide)
-- LoadiFollowsPointer, StoreiFollowsPointer: the largest legal pointer and the smallest illegal one
theorem witness_pointer_in_range :
    ((machine [] 0 0 [(0x020, 0x0FFF#16)]).mem.read (directAddr 0x020#12).toNat).toNat < 4096 := by decide
theorem witness_pointer_out_of_range :
    4096 ≤ ((machine [] 0 0 [(0x020, 0x1000#16)]).mem.read (directAddr 0x020#12).toNat).toNat := by decide
-- JumpToOwnOffsetNeverEnds
theorem witness_jump_to_self :
    (machine [0xA000#16] 0 0 []).status = .running ∧ (machine [0xA000#16] 0 0 []).pc = (0x000#12 : Arg).setWidth 16 ∧
      (machine [0xA000#16] 0 0 []).prog[(machine [0xA000#16] 0 0 []).pc.toNat]? =
        some (0xA000#16 ||| (0x000#12 : Arg).setWidth 16) := by decide
-- InputAssemblesTwoBytes: two bytes left, exactly one left, none left
theorem witness_two_bytes :
    (reader [0x34#8, 0x12#8] 0).input.byteAt? 0 = some 0x34#8 ∧
      (reader [0x34#8, 0x12#8] 0).input.byteAt? (0 + 1) = some 0x12#8 := by decide
theorem witness_one_byte :
    (reader [0x34#8] 0).input.byteAt? (0 + 1) = none ∧ ((reader [0x34#8] 0).input.byteAt? 0).isSome = true := by decide
theorem witness_no_byte : (reader [] 0).input.byteAt? (0 + 1) = none := by decide
-- OutputEmitsTwoBytes, SinkAnswersOutputsInOrder: accepted and refused
theorem witness_sink_accepts : sinkAccepts (writer 1 [] [true, false]) = true := by decide
theorem witness_sink_refuses : sinkAccepts (writer 1 [0#8, 0#8] [true, false]) = false := by decide
-- HaltStopsWithoutAdvance: witness_next_pc_halted.
-- OutputAfterInputEchoesBytes (IO14)
theorem witness_echo :
    (reader [0xAB#8, 0xCD#8] 0).input.byteAt? 0 = some 0xAB#8 ∧
      (reader [0xAB#8, 0xCD#8] 0).input.byteAt? (0 + 1) = some 0xCD#8 ∧
      sinkAccepts (reader [0xAB#8, 0xCD#8] 0) = true := by decide
-- InputStreamBytes: a finite source, an endless one
theorem witness_finite_source : (reader [0x34#8] 0).input.endless = false := by decide
theorem witness_endless_source :
    ({ State.reset with input := ⟨[], .unknown 0⟩ } : State).input.endless = true ∧
      ({ State.reset with input := ⟨[1#8], .repeats 2#8 [3#8]⟩ } : State).input.endless = true := by decide
-- AcChangesOnlyByItsWriters
theorem witness_ac_changes :
    ∃ t, exec (.clear 0#12) (machine [] 3 0 []) = .next t ∧ decide (t.ac ≠ 3#16) = true :=
  answers_next (by decide)
-- AcReadOnlyByItsReaders, PcReadAsDataOnlyByJns
theorem witness_no_reader_of_ac :
    (Instr.load 0x001#12).tag ∉ [Tag.store, .storei, .output, .skipcond, .add, .sub, .addi] ∧
      (Instr.load 0x001#12).tag ≠ .jns := by decide
theorem witness_load_answers :
    ∃ t, exec (.load 0x001#12) (machine [] 0 5 [(1, 0x007D#16)]) = .next t ∧ decide (t.ac = 0x007D#16) = true :=
  answers_next (by decide)
-- FaultEntryIsPrecise, WhichInstructionRaisesWhichFault: each fault, from a running state
theorem witness_fault_unknown :
    ∃ t, step (machine [0xF000#16] 0 0 []) = .next t ∧ decide (t.status = .faulted) = true :=
  answers_next (by decide)
theorem witness_fault_address :
    ∃ t, step (machine [0xD020#16] 0 0 [(0x020, 0x1000#16)]) = .next t ∧ decide (t.status = .faulted) = true :=
  answers_next (by decide)
theorem witness_fault_input :
    ∃ t, step (reader [0x34#8] 0) = .next t ∧ decide (t.status = .faulted) = true :=
  answers_next (by decide)
theorem witness_fault_output :
    ∃ t, step (writer 1 [] [false]) = .next t ∧ decide (t.status = .faulted) = true :=
  answers_next (by decide)
theorem witness_exec_fault :
    ∃ t, exec (.storei 0x030#12) (machine [] 0 4 [(0x030, 0x1000#16)]) = .next t ∧ decide (t.status = .faulted) = true :=
  answers_next (by decide)
-- LaunchBindsParameters: with an image of 4096 words
theorem witness_launch_image :
    ([0x7000#16] : List Word).length ≤ 65535 ∧
      ∀ image, some (List.replicate 4096 0x0001#16) = some image → image.length = 4096 := by
  refine ⟨by decide, fun image h => ?_⟩
  cases h
  exact List.length_replicate
-- LaunchRefusesParametersOutOfRange: one word too many; one cell too few
theorem witness_program_too_long : 65535 < (List.replicate 65536 0x0000#16).length := by
  rw [List.length_replicate]
  decide
theorem witness_image_too_short :
    ([0x7000#16] : List Word).length ≤ 65535 ∧
      (⟨[0x7000#16], some (List.replicate 4095 0x0001#16), ⟨[], .ends⟩, [], 0⟩ : Parameters).memInit =
        some (List.replicate 4095 0x0001#16) ∧
      (List.replicate 4095 0x0001#16).length ≠ 4096 := by
  refine ⟨by decide, rfl, ?_⟩
  rw [List.length_replicate]
  decide
-- StepKeepsInvariant: a running state with a listed cell meets the invariant, and steps
theorem witness_invariant : Inv (machine [0x1005#16] 0 0 [(0x005, 0x0001#16)]) :=
  ⟨by decide, by decide, by decide, fun f h => (by cases h), fun h => (by cases h), fun h => (by cases h),
    fun _ => by decide, fun _ => by decide⟩
theorem witness_invariant_steps :
    ∃ t, step (machine [0x1005#16] 0 0 [(0x005, 0x0001#16)]) = .next t ∧ decide (t.ac = 0x0001#16) = true :=
  answers_next (by decide)
-- LaunchedRunsKeepInvariant: a launched program that runs one step
theorem witness_launched :
    State.launch ⟨[0x7000#16], none, ⟨[], .ends⟩, [], 0⟩ = .next (machine [0x7000#16] 0 0 []) ∧
      Reaches 1 (machine [0x7000#16] 0 0 []) (haltRun (machine [0x7000#16] 0 0 [])) :=
  ⟨rfl, _, rfl, rfl⟩

-- EveryInputSequenceCanBeGiven: the only position (of the sequence, of the listed bytes), the last of the repeated bytes,
-- the end of the listed bytes
theorem witness_input_sequence :
    0 < 1 ∧ 0 < ([0x48#8] : List Byte).length ∧ ([0x0A#8] : List Byte).length < ([0x0A#8] : List Byte).length + 1 ∧
      ([0x48#8] : List Byte).length ≤ 1 := by decide
theorem witness_repeats_round :
    (InStream.mk [0x48#8] (.repeats 0x21#8 [0x0A#8])).byteAt? 2 = some 0x0A#8 ∧
      (InStream.mk [0x48#8] (.repeats 0x21#8 [0x0A#8])).byteAt? 3 = some 0x21#8 := by decide
-- InputReadOnlyAtItsCursor: two sources that agree at the cursor only, and a step that reads there
theorem witness_other_source :
    (InStream.mk [0x00#8, 0x34#8, 0x12#8] .ends).byteAt? 1 = (reader [0xFF#8, 0x34#8, 0x12#8, 9#8] 1).input.byteAt? 1 ∧
      (InStream.mk [0x00#8, 0x34#8, 0x12#8] .ends).byteAt? (1 + 1) =
        (reader [0xFF#8, 0x34#8, 0x12#8, 9#8] 1).input.byteAt? (1 + 1) := by decide
theorem witness_other_source_steps :
    ∃ t, step (reader [0xFF#8, 0x34#8, 0x12#8, 9#8] 1) = .next t ∧ decide (t.ac = 0x1234#16) = true :=
  answers_next (by decide)
-- and its second clause, a run of one step
theorem witness_other_source_run :
    (∀ p, (reader [0xFF#8, 0x34#8, 0x12#8, 9#8] 1).inPos ≤ p → p < (reader [0xFF#8, 0x34#8, 0x12#8, 9#8] 1).inPos + 2 * 1 →
      (InStream.mk [0x00#8, 0x34#8, 0x12#8] .ends).byteAt? p = (reader [0xFF#8, 0x34#8, 0x12#8, 9#8] 1).input.byteAt? p) ∧
      ∃ t, Reaches 1 (reader [0xFF#8, 0x34#8, 0x12#8, 9#8] 1) t := by
  refine ⟨fun p h1 h2 => ?_, _, _, rfl, rfl⟩
  change 1 ≤ p at h1
  change p < 3 at h2
  obtain rfl | rfl : p = 1 ∨ p = 2 := by omega
  · decide
  · decide

end Sys2Proof.Tests
end

section
/-! The two memory accesses `MemRead` and `MemWrite` (R31 to R33). -/

namespace Sys2Proof.Proofs.MemoryAccess
open Sys2Proof Sys2Proof.Machine

/-- A cell just written reads back whole, inside whatever instruction the read is (R33). -/
theorem memRead_setCell_same (opcode : Opcode) (arg : Arg) {addr : Word} (v : Word) (s : State)
    (h : addr.toNat < 4096) : memRead opcode arg addr (setCell addr.toNat v s) = .ok v := by
  rw [memRead_inRange opcode arg _ h, setCell_mem, Memory.read_write_same]

/-- Settles O16: below 4096 the state that the write answers is `setCell`, whose frame, read-back and other cells are
the laws of `setCell` and of `Memory.write`. -/
theorem memWriteChangesOneCell : Obligations.MemWriteChangesOneCell := by
  intro opcode arg addr v s
  refine ⟨memWrite_outOfRange opcode arg v s, fun hlt => ?_⟩
  refine ⟨setCell addr.toNat v s, memWrite_inRange opcode arg v s hlt, ?frame, ?readBack, ?otherCells⟩
  case frame => rfl
  case readBack => exact fun opcode' arg' => memRead_setCell_same opcode' arg' v s hlt
  case otherCells => exact fun b hb => Memory.read_write_other s.mem v hb

/-- Settles O15, by the two laws of `memRead`, one on each side of 4096. -/
theorem memReadChecksRangeFirst : Obligations.MemReadChecksRangeFirst :=
  fun opcode arg _ s => ⟨memRead_outOfRange opcode arg s, memRead_inRange opcode arg s⟩

end Sys2Proof.Proofs.MemoryAccess
end

section
/-! The encoding (30_encoding.md): the two fields of a word, the opcode map, the one unmapped opcode and the unused
arguments. -/

namespace Sys2Proof.Proofs.Encoding
open Sys2Proof Sys2Proof.Machine

/-- The opcode field in the spec's own formula, `(word >> 12) & 0xF` (R51). -/
theorem opcodeField_setWidth (w : Word) : (opcodeField w).setWidth 16 = (w >>> 12) &&& 0x000F#16 := by
  apply BitVec.eq_of_toNat_eq
  have hmask : (w >>> 12 &&& 0x000F#16).toNat = w.toNat / 4096 % 16 := by
    rw [BitVec.toNat_and, BitVec.toNat_ushiftRight, Nat.shiftRight_eq_div_pow]
    exact Nat.and_two_pow_sub_one_eq_mod _ 4
  have := w.isLt
  rw [BitVec.toNat_setWidth, opcodeField_toNat, hmask]
  omega

/-- The argument field in the spec's own formula, `word & 0x0FFF` (R51). -/
theorem argField_setWidth (w : Word) : (argField w).setWidth 16 = w &&& 0x0FFF#16 := by
  apply BitVec.eq_of_toNat_eq
  have hmask : (w &&& 0x0FFF#16).toNat = w.toNat % 4096 := by
    rw [BitVec.toNat_and]
    exact Nat.and_two_pow_sub_one_eq_mod _ 12
  rw [BitVec.toNat_setWidth, argField_toNat, hmask]
  omega

/-- Settles O2: the two formulas of R51, and the instruction that the opcode map selects keeps both fields. -/
theorem decodeSplitsWord : Obligations.DecodeSplitsWord :=
  fun w => ⟨opcodeField_setWidth w, argField_setWidth w, fun _ hdecode => instrOf_eq_ok hdecode⟩

/-- A word written as `match | arg` decodes to what the opcode map has for the match value's opcode (R53). -/
theorem decode_match_or (op : Opcode) (arg : Arg) {m : Word} (hm : m.toNat = op.toNat * 4096) :
    decode (m ||| arg.setWidth 16) = instrOf op arg := by
  rw [or_setWidth_eq_append op arg m hm, decode_append]

/-- Settles O3: each row is `decode_match_or` at the opcode of its match value. -/
theorem opcodeMapSelectsInstruction : Obligations.OpcodeMapSelectsInstruction := by
  intro arg
  have row (op : Opcode) {m : Word} (hm : m.toNat = op.toNat * 4096) := decode_match_or op arg hm
  exact ⟨row 0x0#4 rfl, row 0x1#4 rfl, row 0x2#4 rfl, row 0x3#4 rfl, row 0x4#4 rfl, row 0x5#4 rfl, row 0x6#4 rfl,
    row 0x7#4 rfl, row 0x8#4 rfl, row 0x9#4 rfl, row 0xA#4 rfl, row 0xB#4 rfl, row 0xC#4 rfl, row 0xD#4 rfl,
    row 0xE#4 rfl, row 0xF#4 rfl⟩

/-- The words whose bits 15:12 are 1111 are those from 0xF000 on (R56). -/
theorem opcodeField_eq_unmapped_iff (w : Word) : opcodeField w = 0xF#4 ↔ 0xF000 ≤ w.toNat := by
  have := w.isLt
  rw [← BitVec.toNat_inj, opcodeField_toNat, show (0xF#4 : Opcode).toNat = 15 from rfl]
  omega

/-- The decoder refuses a word exactly for the opcode that the map leaves out (R53, R56). -/
theorem decode_eq_unknownOpcode_iff (w : Word) :
    decode w = .error (.unknownOpcode 0xF#4) ↔ opcodeField w = 0xF#4 := by
  refine ⟨fun h => (decode_eq_error h).1, fun h => ?_⟩
  rw [decode, h]
  rfl

/-- Every word with a mapped opcode is an instruction (R53, R58). -/
theorem exists_decode_of_opcodeField_ne {w : Word} (h : opcodeField w ≠ 0xF#4) : ∃ i, decode w = .ok i := by
  cases hdecode : decode w with
  | ok i => exact ⟨i, rfl⟩
  | error e => exact absurd (decode_eq_error hdecode).1 h

/-- A running machine runs the word that it fetches (R70, R73). -/
theorem step_of_fetch {s : State} {w : Word} (hrun : s.status = .running) (hfetch : fetch s = some w) :
    step s = runWord w s := by
  rw [step, hrun, runCycle, hfetch]

/-- A word that the decoder refuses raises UnknownOpcode, and no handler runs (R142). -/
theorem runWord_of_decode_error {w : Word} {op : Opcode} (s : State) (h : decode w = .error (.unknownOpcode op)) :
    runWord w s = .next (raise (.unknownOpcode op) s) := by
  rw [runWord, h]

/-- Settles O6, by the one unmapped opcode: it is that of the words from 0xF000 on, and the step takes the decoder's
error as the fault. -/
theorem unknownOpcodeExactlyAboveF000 : Obligations.UnknownOpcodeExactlyAboveF000 := by
  have hunknown (w : Word) : decode w = .error (.unknownOpcode 0xF#4) ↔ 0xF000 ≤ w.toNat :=
    (decode_eq_unknownOpcode_iff w).trans (opcodeField_eq_unmapped_iff w)
  refine ⟨hunknown, fun w hlt => ?known, fun s w hrun hfetch hle => ?fault⟩
  case known =>
    exact exists_decode_of_opcodeField_ne (mt (opcodeField_eq_unmapped_iff w).1 (by omega))
  case fault =>
    rw [step_of_fetch hrun hfetch, runWord_of_decode_error s ((hunknown w).2 hle)]
    rfl

/-- Settles O41: the four handlers are constant in the argument (R55), and each match value with any argument is a row
of the opcode map. -/
theorem unusedArgumentIgnored : Obligations.UnusedArgumentIgnored := by
  intro a b
  refine ⟨fun s => ⟨?input, ?output, ?halt, ?clear⟩, decode_match_or 0x5#4 a rfl, decode_match_or 0x6#4 a rfl,
    decode_match_or 0x7#4 a rfl, decode_match_or 0x9#4 a rfl⟩
  case input => exact (rfl : execInput a s = execInput b s)
  case output => exact (rfl : execOutput a s = execOutput b s)
  case halt => exact (rfl : execHalt a s = execHalt b s)
  case clear => exact (rfl : execClear a s = execClear b s)

end Sys2Proof.Proofs.Encoding
end

section
/-! The step cycle (40_step_cycle.md): the termination check. -/

namespace Sys2Proof.Proofs.StepCycle
open Sys2Proof Sys2Proof.Machine

/-- A running machine whose fetch finds no word ends the run (R70, R72). -/
theorem step_of_fetch_none {s : State} (hrun : s.status = .running) (hfetch : fetch s = none) :
    step s = .next (endRun s) := by
  rw [step, hrun, runCycle, hfetch]

/-- Settles O10: at `u(PC) >= L` the fetch finds no word, and `endRun` writes `status` alone. -/
theorem endOfProgramEndsRun : Obligations.EndOfProgramEndsRun :=
  fun _ hrun hend => step_of_fetch_none hrun (fetch_eq_none.2 hend)

end Sys2Proof.Proofs.StepCycle
end

section
/-! The four data transfers LOAD, STORE, LOADI and STOREI (41_load_store.md). -/

namespace Sys2Proof.Proofs.LoadStore
open Sys2Proof Sys2Proof.Machine Sys2Proof.Proofs.Encoding

/-! ### What the two completed transfers answer -/

/-- The sequential advance writes PC alone (R76). -/
theorem advance_eq (s : State) : advance s = { s with pc := s.pc + 1#16 } := by
  rw [advance, addWord_eq, jumpTo]

/-- A completed load writes AC and advances PC; no other field is written (R90, R92). -/
theorem advance_setAc (v : Word) (s : State) : advance (setAc v s) = { s with ac := v, pc := s.pc + 1#16 } :=
  advance_eq (setAc v s)

/-- A completed store writes the one cell and advances PC; no other field is written (R91, R93). -/
theorem advance_setCell (a : Nat) (v : Word) (s : State) :
    advance (setCell a v s) = { s with mem := s.mem.write a v, pc := s.pc + 1#16 } :=
  advance_eq (setCell a v s)

/-- A completed store as the obligations speak of it: the frame of the whole state, the cell written and every other
cell (R30, R33). -/
theorem advance_setCell_effect (a : Nat) (v : Word) (s : State) :
    advance (setCell a v s) = { s with mem := (advance (setCell a v s)).mem, pc := s.pc + 1#16 } ∧
      (advance (setCell a v s)).mem.read a = v ∧
      ∀ b, b ≠ a → (advance (setCell a v s)).mem.read b = s.mem.read b :=
  ⟨advance_setCell a v s, Memory.read_write_same s.mem a v, fun _ hb => Memory.read_write_other s.mem v hb⟩

/-! ### The direct forms -/

/-- LOAD always completes: its address is direct (R34, R90). -/
theorem exec_load (arg : Arg) (s : State) :
    exec (.load arg) s = .next (advance (setAc (s.mem.read (directAddr arg).toNat) s)) :=
  withOperand_direct 0x1#4 arg s _

/-- STORE always completes: its address is direct (R34, R91). -/
theorem exec_store (arg : Arg) (s : State) :
    exec (.store arg) s = .next (advance (setCell (directAddr arg).toNat s.ac s)) :=
  withStore_direct 0x2#4 arg s.ac s _

/-! ### The indirect forms: the pointer's cell is direct, the access through the pointer is checked -/

/-- LOADI is the checked load at the pointer that the direct read finds (R92). -/
theorem exec_loadi (arg : Arg) (s : State) :
    exec (.loadi arg) s =
      withOperand 0xD#4 arg (s.mem.read (directAddr arg).toNat) s fun v => .next (advance (setAc v s)) :=
  withOperand_direct 0xD#4 arg s _

/-- STOREI is the checked store at the pointer that the direct read finds (R93). -/
theorem exec_storei (arg : Arg) (s : State) :
    exec (.storei arg) s =
      withStore 0xE#4 arg (s.mem.read (directAddr arg).toNat) s.ac s fun t => .next (advance t) :=
  withOperand_direct 0xE#4 arg s _

/-! ### The obligations -/

/-- Settles O21: the row of the opcode map, and the completed load at the direct address. -/
theorem loadCopiesCellIntoAc : Obligations.LoadCopiesCellIntoAc :=
  fun arg s => ⟨decode_match_or 0x1#4 arg rfl, by rw [exec_load, advance_setAc]⟩

/-- Settles O22: the completed store at the direct address, and the LOAD after it, which reads the cell just written. -/
theorem storeCopiesAcIntoCell : Obligations.StoreCopiesAcIntoCell := by
  intro arg s
  obtain ⟨hframe, hcell, hothers⟩ := advance_setCell_effect (directAddr arg).toNat s.ac s
  refine ⟨decode_match_or 0x2#4 arg rfl, _, exec_store arg s, hframe, hcell, hothers, ?loadAfter⟩
  case loadAfter => rw [exec_load, hcell, advance_setAc]

/-- Settles O23, on each side of 4096: the completed load at the pointer, and the fault of the access with the pointer
in its record. -/
theorem loadiFollowsPointer : Obligations.LoadiFollowsPointer := by
  intro arg s
  refine ⟨decode_match_or 0xD#4 arg rfl, fun hin => ?completed, fun hout => ?fault⟩
  case completed => rw [exec_loadi, withOperand_inRange _ _ _ _ hin, advance_setAc]
  case fault => rw [exec_loadi, withOperand_outOfRange _ _ _ _ hout, raise]

/-- Settles O24, on each side of 4096: the completed store at the pointer, which is read before the write (so the case
`ptr = arg` is no exception), and the fault of the access with the pointer in its record. -/
theorem storeiFollowsPointer : Obligations.StoreiFollowsPointer := by
  intro arg s
  refine ⟨decode_match_or 0xE#4 arg rfl, fun hin => ?completed, fun hout => ?fault⟩
  case completed =>
    exact ⟨_, (exec_storei arg s).trans (withStore_inRange _ _ _ _ _ hin), advance_setCell_effect _ _ _⟩
  case fault => rw [exec_storei, withStore_outOfRange _ _ _ _ _ hout, raise]

end Sys2Proof.Proofs.LoadStore
end

section
/-! Arithmetic (42_arithmetic.md): the wraparound of sum and difference, and what ADD, SUB, ADDI and CLEAR answer. -/

namespace Sys2Proof.Proofs.Arithmetic
open Sys2Proof Sys2Proof.Machine Sys2Proof.Proofs.Encoding Sys2Proof.Proofs.LoadStore

/-! ### Wraparound (R104) -/

/-- Reduction into the signed range of a Word corrects an exact result by at most one multiple of 65536, when the result
is less than one and a half multiples away from zero. -/
theorem bmod_eq_corrected {x : Int} (hlo : -98304 ≤ x) (hhi : x < 98304) :
    x.bmod 65536 = if 32767 < x then x - 65536 else if x < -32768 then x + 65536 else x := by
  rw [Int.bmod_def]
  omega

/-- The range of a Word read as a signed number (R6). -/
theorem toInt_bounds (a : Word) : -32768 ≤ a.toInt ∧ a.toInt ≤ 32767 :=
  ⟨BitVec.le_toInt a, Int.le_of_lt_add_one (BitVec.toInt_lt (x := a))⟩

theorem addWord_toNat (a b : Word) : (addWord a b).toNat = (a.toNat + b.toNat) % 65536 :=
  BitVec.toNat_ofNat _ 16

theorem subWord_toNat (a b : Word) : (subWord a b).toNat = (a.toNat + 65536 - b.toNat) % 65536 :=
  BitVec.toNat_ofNat _ 16

/-- The sum of two signed Words lies in -65536 to 65534, so one correction suffices. -/
theorem addWord_toInt (a b : Word) :
    (addWord a b).toInt =
      if 32767 < a.toInt + b.toInt then a.toInt + b.toInt - 65536
      else if a.toInt + b.toInt < -32768 then a.toInt + b.toInt + 65536 else a.toInt + b.toInt := by
  have ha := toInt_bounds a
  have hb := toInt_bounds b
  rw [addWord_eq, BitVec.toInt_add]
  exact bmod_eq_corrected (by omega) (by omega)

/-- The difference of two signed Words lies in -65535 to 65535, so one correction suffices. -/
theorem subWord_toInt (a b : Word) :
    (subWord a b).toInt =
      if 32767 < a.toInt - b.toInt then a.toInt - b.toInt - 65536
      else if a.toInt - b.toInt < -32768 then a.toInt - b.toInt + 65536 else a.toInt - b.toInt := by
  have ha := toInt_bounds a
  have hb := toInt_bounds b
  rw [subWord_eq, BitVec.toInt_sub]
  exact bmod_eq_corrected (by omega) (by omega)

/-! ### What the four instructions answer -/

/-- A direct operand is always in range, so combining it with AC always completes: AC and PC are written, and no other
field (R34, R100 to R102). -/
theorem accumulate_answer (op : Word → Word → Word) (opcode : Opcode) (arg : Arg) (s : State) :
    accumulate op opcode arg s =
      .next { s with ac := op s.ac (s.mem.read (directAddr arg).toNat), pc := s.pc + 1#16 } := by
  rw [accumulate_eq, advance_setAc]

theorem exec_add (arg : Arg) (s : State) :
    exec (.add arg) s =
      .next { s with ac := addWord s.ac (s.mem.read (directAddr arg).toNat), pc := s.pc + 1#16 } :=
  accumulate_answer addWord 0x3#4 arg s

theorem exec_sub (arg : Arg) (s : State) :
    exec (.sub arg) s =
      .next { s with ac := subWord s.ac (s.mem.read (directAddr arg).toNat), pc := s.pc + 1#16 } :=
  accumulate_answer subWord 0x4#4 arg s

theorem exec_addi (arg : Arg) (s : State) :
    exec (.addi arg) s =
      .next { s with ac := addWord s.ac (s.mem.read (directAddr arg).toNat), pc := s.pc + 1#16 } :=
  accumulate_answer addWord 0xB#4 arg s

theorem exec_clear (arg : Arg) (s : State) : exec (.clear arg) s = .next (advance (setAc 0x0000#16 s)) := rfl

/-! ### The obligations -/

/-- Settles O25: the unsigned and the signed value of sum and difference, and the answers of the three instructions that
put them in AC. -/
theorem wrapAroundLaw : Obligations.WrapAroundLaw :=
  ⟨fun a b => ⟨addWord_toNat a b, subWord_toNat a b, addWord_toInt a b, subWord_toInt a b⟩,
    fun arg s => ⟨exec_add arg s, exec_addi arg s, exec_sub arg s⟩⟩

/-- Settles O26: the row of the opcode map, and the answer of ADD with its sum as the 16-bit addition. -/
theorem addAddsCellToAc : Obligations.AddAddsCellToAc :=
  fun arg s => ⟨decode_match_or 0x3#4 arg rfl, by rw [exec_add, addWord_eq]⟩

/-- Settles O27: the row of the opcode map, and the answer of SUB with its difference as the 16-bit subtraction. -/
theorem subSubtractsCellFromAc : Obligations.SubSubtractsCellFromAc :=
  fun arg s => ⟨decode_match_or 0x4#4 arg rfl, by rw [exec_sub, subWord_eq]⟩

/-- Settles O28: the row of the opcode map, and one answer for ADDI and ADD, because the opcode would show only in the
fault that a direct operand cannot raise. -/
theorem addiIsAddUnderAnotherOpcode : Obligations.AddiIsAddUnderAnotherOpcode :=
  fun arg s => ⟨decode_match_or 0xB#4 arg rfl, by rw [exec_addi, addWord_eq], by rw [exec_addi, exec_add]⟩

/-- Settles O29: the row of the opcode map, and the answer of CLEAR, in which the argument does not occur. -/
theorem clearZeroesAc : Obligations.ClearZeroesAc :=
  fun arg s => ⟨decode_match_or 0x9#4 arg rfl, by rw [exec_clear, advance_setAc]⟩

end Sys2Proof.Proofs.Arithmetic
end

section
/-! Control transfer (43_skip_jump.md): when SKIPCOND skips, and where the four instructions leave PC. -/

namespace Sys2Proof.Proofs.Control
open Sys2Proof Sys2Proof.Machine Sys2Proof.Proofs.Encoding Sys2Proof.Proofs.LoadStore

/-! ### The condition of SKIPCOND -/

/-- SKIPCOND skips in three cases only, each with a whole selector and the sign that it asks for (R110). -/
theorem skipHolds_iff (selector : Arg) (ac : Word) :
    skipHolds selector ac = true ↔
      (selector = 0x000#12 ∧ ac.toInt < 0) ∨ (selector = 0x400#12 ∧ ac.toInt = 0) ∨
        (selector = 0x800#12 ∧ 0 < ac.toInt) := by
  unfold skipHolds
  split
  next is000 => simp [is000]
  next not000 =>
    split
    next is400 => simp [is400]
    next not400 =>
      split
      next is800 => simp [is800]
      next not800 => simp [not000, not400, not800]

/-! ### What the four instructions answer -/

/-- A taken skip writes PC alone (R76, R110). -/
theorem skipNext_eq (s : State) : skipNext s = { s with pc := s.pc + 2#16 } := by
  rw [skipNext, addWord_eq, jumpTo]

theorem exec_skipcond (selector : Arg) (s : State) :
    exec (.skipcond selector) s =
      .next { s with pc := if skipHolds selector s.ac then s.pc + 2#16 else s.pc + 1#16 } := by
  rw [exec, execSkipcond]
  split
  next => rw [skipNext_eq]
  next => rw [advance_eq]

theorem exec_jump (arg : Arg) (s : State) : exec (.jump arg) s = .next (jumpTo (directTarget arg) s) := rfl

/-- JUMPI always completes: its address is direct (R34, R112). -/
theorem exec_jumpi (arg : Arg) (s : State) :
    exec (.jumpi arg) s = .next (jumpTo (s.mem.read (directAddr arg).toNat) s) :=
  withOperand_direct 0xC#4 arg s _

/-- JNS always completes: its address is direct, and the PC stored is the one it starts with (R34, R113). -/
theorem exec_jns (arg : Arg) (s : State) :
    exec (.jns arg) s = .next (jumpTo (directTarget arg) (setCell (directAddr arg).toNat s.pc s)) :=
  withStore_direct 0x0#4 arg s.pc s _

/-! ### The obligations -/

/-- Settles O31: the row of the opcode map, and the answer of SKIPCOND with its condition as the three cases of R110. -/
theorem skipcondComparesAcWithZero : Obligations.SkipcondComparesAcWithZero :=
  fun selector s => ⟨decode_match_or 0x8#4 selector rfl, by simp only [exec_skipcond, skipHolds_iff]⟩

/-- Settles O33: the row of the opcode map, and the jump to the argument, which writes PC alone. -/
theorem jumpSetsPcToArgument : Obligations.JumpSetsPcToArgument :=
  fun arg s => ⟨decode_match_or 0xA#4 arg rfl, by rw [exec_jump, jumpTo, directTarget]⟩

/-- Settles O34: the row of the opcode map, and the jump to the word that the direct read finds, which no range check
meets. -/
theorem jumpiSetsPcToCell : Obligations.JumpiSetsPcToCell :=
  fun arg s => ⟨decode_match_or 0xC#4 arg rfl, by rw [exec_jumpi, jumpTo]⟩

/-- Settles O35: the row of the opcode map, and the completed jump-and-store: the one cell written, every other cell as
before, and no field but Memory and PC changed. -/
theorem jnsStoresItsOwnOffset : Obligations.JnsStoresItsOwnOffset := by
  intro arg s
  refine ⟨decode_match_or 0x0#4 arg rfl, _, exec_jns arg s, ?frame, ?cell, fun b hb => ?others⟩
  case frame => rw [jumpTo, setCell, directTarget]
  case cell => rw [jumpTo_mem, setCell_mem, Memory.read_write_same]
  case others => rw [jumpTo_mem, setCell_mem, Memory.read_write_other _ _ hb]

end Sys2Proof.Proofs.Control
end

section
/-! The stream instructions INPUT and OUTPUT (44_io_halt.md). -/

namespace Sys2Proof.Proofs.StreamIo
open Sys2Proof Sys2Proof.Machine Sys2Proof.Proofs.Encoding Sys2Proof.Proofs.LoadStore

/-! ### The answers of INPUT, by the bytes that are left (R17, R120) -/

theorem exec_input_of_two_bytes (arg : Arg) {s : State} {b0 b1 : Byte} (hbytes : nextTwoBytes s = some (b0, b1)) :
    exec (.input arg) s =
      .next { s with ac := wordOfBytes b0 b1, inPos := s.inPos + 2, pc := s.pc + 1#16 } := by
  rw [exec, execInput, hbytes]
  exact congrArg Host.Outcome.next (advance_setAc (wordOfBytes b0 b1) (consumeTwo s))

theorem exec_input_of_no_two_bytes (arg : Arg) {s : State} (hnone : nextTwoBytes s = none) :
    exec (.input arg) s = .next (failInput s) := by
  rw [exec, execInput, hnone]

/-! ### The answers of OUTPUT, by the verdict of the sink (R18, R121) -/

theorem exec_output_of_accepted (arg : Arg) {s : State} (haccept : sinkAccepts s = true) :
    exec (.output arg) s =
      .next { s with out := s.out ++ [lowByte s.ac, highByte s.ac], pc := s.pc + 1#16 } := by
  rw [exec, execOutput, if_pos haccept, advance_eq, emitTwo]

theorem exec_output_of_refused (arg : Arg) {s : State} (hrefuse : sinkAccepts s = false) :
    exec (.output arg) s = .next (failOutput (lowByte s.ac) s) := by
  rw [exec, execOutput, hrefuse, if_neg Bool.false_ne_true]

/-! ### The obligations -/

/-- Settles O38: the row of the opcode map, and the two outcomes of reading two bytes; the free value of the failed read
is at most the one byte that was left. -/
theorem inputAssemblesTwoBytes : Obligations.InputAssemblesTwoBytes := by
  intro arg s
  refine ⟨decode_match_or 0x5#4 arg rfl, fun b0 b1 hb0 hb1 => ?completed, fun hnone => ?fault⟩
  case completed => exact exec_input_of_two_bytes arg (nextTwoBytes_eq_some.2 ⟨hb0, hb1⟩)
  case fault =>
    exact ⟨failedInputCount s, s.draws + 1, failedInputCount_cases s,
      exec_input_of_no_two_bytes arg (nextTwoBytes_eq_none.2 hnone)⟩

/-- Settles O39: the row of the opcode map, and the two verdicts of the sink; the free value of the refused write is at
most its first byte. -/
theorem outputEmitsTwoBytes : Obligations.OutputEmitsTwoBytes := by
  intro arg s
  refine ⟨decode_match_or 0x6#4 arg rfl, exec_output_of_accepted arg, fun hrefuse => ?fault⟩
  case fault =>
    exact ⟨failedOutputBytes (lowByte s.ac) s, s.draws + 1, failedOutputBytes_cases (lowByte s.ac) s,
      exec_output_of_refused arg hrefuse⟩

end Sys2Proof.Proofs.StreamIo
end

section
/-! Exceptions (60_exceptions.md): how a step enters FAULTED, and what it leaves as it was. -/

namespace Sys2Proof.Proofs.Exceptions
open Sys2Proof Sys2Proof.Machine

/-! ### The entries into FAULTED -/

/-- The entries into FAULTED from a state: a record is raised on the state as it stands, or one of the two stream operations
fails and leaves its own stream as its free value says (R17, R18, R144). -/
inductive FaultEntry (s : State) : State → Prop where
  | raised (f : FaultRecord) (notInput : f ≠ .streamFault .input) (notOutput : f ≠ .streamFault .output) :
    FaultEntry s (raise f s)
  | inputFailed : FaultEntry s (failInput s)
  | outputRefused : FaultEntry s (failOutput (lowByte s.ac) s)

/-- An instruction that leads to FAULTED does so by a fault entry: the completed ones keep the status, and HALT sets
another. -/
theorem faultEntry_of_exec {i : Instr} {s t : State} (hs : s.status ≠ .faulted) (hexec : exec i s = .next t)
    (ht : t.status = .faulted) : FaultEntry s t := by
  obtain ⟨v, rfl⟩ | ⟨a, v, -, rfl⟩ | ⟨a, v, target, -, rfl⟩ | ⟨target, rfl⟩ | ⟨arg, -, rfl⟩ |
    ⟨arg, b0, b1, -, -, rfl⟩ | ⟨arg, -, -, rfl⟩ | ⟨arg, -, -, rfl⟩ | ⟨arg, -, -, rfl⟩ |
    ⟨arg, ptr, -, -, -, rfl⟩ | ⟨arg, ptr, -, -, -, rfl⟩ := exec_next_cases hexec
  · exact absurd ht hs
  · exact absurd ht hs
  · exact absurd ht hs
  · exact absurd ht hs
  · exact absurd ht (by simp)
  · exact absurd ht hs
  · exact .inputFailed
  · exact absurd ht hs
  · exact .outputRefused
  · exact .raised _ (by simp) (by simp)
  · exact .raised _ (by simp) (by simp)

/-- A step that leads to FAULTED does so by a fault entry: of its own it ends the run or raises UnknownOpcode (R72,
R142), and the rest is the instruction's. -/
theorem faultEntry_of_step {s t : State} (hstep : step s = .next t) (ht : t.status = .faulted) : FaultEntry s t := by
  obtain ⟨hrun, ⟨-, rfl⟩ | ⟨w, i, -, -, hexec⟩ | ⟨w, -, -, rfl⟩⟩ := step_next_cases hstep
  · exact absurd ht (by simp)
  · exact faultEntry_of_exec (by simp [hrun]) hexec ht
  · exact .raised _ (by simp) (by simp)

/-! ### What an entry changes -/

/-- The frame that all entries share (R144). -/
theorem FaultEntry.frame {s t : State} (h : FaultEntry s t) :
    t.ac = s.ac ∧ t.mem = s.mem ∧ t.pc = s.pc ∧ t.prog = s.prog ∧ t.input = s.input ∧ t.outOk = s.outOk := by
  cases h with
  | raised f _ _ => simp
  | inputFailed => simp
  | outputRefused => simp

/-- A failed INPUT leaves the cursor or consumes the one byte that was left (R17). -/
theorem failInput_inPos_cases (s : State) :
    (failInput s).inPos = s.inPos ∨
      ((failInput s).inPos = s.inPos + 1 ∧ (s.input.byteAt? s.inPos).isSome = true) := by
  rw [failInput_inPos]
  obtain hcount | ⟨hcount, hbyte⟩ := failedInputCount_cases s
  · exact .inl (by rw [hcount, Nat.add_zero])
  · exact .inr ⟨by rw [hcount], hbyte⟩

/-- A refused OUTPUT emits nothing or its first byte (R18). -/
theorem failOutput_out_cases (b0 : Byte) (s : State) :
    (failOutput b0 s).out = s.out ∨ (failOutput b0 s).out = s.out ++ [b0] := by
  rw [failOutput_out]
  obtain hbytes | hbytes := failedOutputBytes_cases b0 s
  · exact .inl (by rw [hbytes, List.append_nil])
  · exact .inr (by rw [hbytes])

/-! ### The obligation -/

/-- Settles O49: a faulting step is one of the three entries, which share the frame; the first is the old state with
status and fault set, and the other two differ from it in their own stream alone. -/
theorem faultEntryIsPrecise : Obligations.FaultEntryIsPrecise := by
  intro s t hstep ht
  have hentry := faultEntry_of_step hstep ht
  obtain ⟨hac, hmem, hpc, hprog, hinput, houtOk⟩ := hentry.frame
  refine ⟨hac, hmem, hpc, hprog, hinput, houtOk, ?_⟩
  cases hentry with
  | raised f notInput notOutput => exact .inl ⟨f, rfl, notInput, notOutput⟩
  | inputFailed => exact .inr (.inl ⟨failInput_fault s, failInput_out s, failInput_inPos_cases s⟩)
  | outputRefused =>
    exact .inr (.inr ⟨failOutput_fault _ s, failOutput_inPos _ s, failOutput_out_cases (lowByte s.ac) s⟩)

end Sys2Proof.Proofs.Exceptions
end

section
/-! The encoder beside the decoder (30_encoding.md): they are inverse to each other, and the reserved tags have no word. -/

namespace Sys2Proof.Proofs.RoundTrip
open Sys2Proof Sys2Proof.Machine Sys2Proof.Proofs.LoadStore

/-- The opcode map selects each instruction by its own opcode and keeps its argument (R53). -/
theorem instrOf_opcode_arg (i : Instr) : instrOf i.opcode i.arg = .ok i := by
  cases i <;> rfl

/-- Settles O4: an encoded word decodes by its two fields, and the opcode map gives the instruction back. -/
theorem decodeOfEncodeIsInstruction : Obligations.DecodeOfEncodeIsInstruction :=
  fun i => (decode_append i.opcode i.arg).trans (instrOf_opcode_arg i)

/-- Settles O5: the instruction of a legal word holds both fields of the word, and the encoder puts them together. -/
theorem encodeOfDecodeIsWord : Obligations.EncodeOfDecodeIsWord :=
  fun _ _ hdecode => (eq_append_of_decode hdecode).symm

/-- Settles O1, by running the decoder on the sixteen words. -/
theorem sampleWordsDecode : Obligations.SampleWordsDecode := by
  unfold Obligations.SampleWordsDecode
  decide

/-! ### The reserved tags (45_reserved_tags.md) -/

theorem tag_encodable (i : Instr) : i.tag.encodable = true := by
  cases i <;> rfl

theorem tag_ne_of_not_encodable (i : Instr) {t : Tag} (h : t.encodable = false) : i.tag ≠ t :=
  fun htag => Bool.false_ne_true (h.symm.trans (htag ▸ tag_encodable i))

theorem word?_of_not_encodable {l : Listing} (h : l.tag.encodable = false) : l.word? = none := by
  rw [Listing.word?, Listing.wellFormed, h, Bool.false_and, if_neg Bool.false_ne_true]

/-- Settles O7: DEC, HEX and NOP are the tags without an encoding, which no instruction has and no listing with a word;
the three handlers are the sequential advance. -/
theorem reservedTagsUnreachableNoOps : Obligations.ReservedTagsUnreachableNoOps := by
  refine ⟨fun _ i _ => ⟨?dec, ?hex, ?nop⟩, fun n => ⟨?wordDec, ?wordHex, ?wordNop⟩, fun _ s => ?handlers⟩
  case dec | hex | nop => exact tag_ne_of_not_encodable i rfl
  case wordDec | wordHex | wordNop => exact word?_of_not_encodable rfl
  case handlers =>
    have hadvance := congrArg (Host.Outcome.next (φ := Fault) (ρ := Refusal)) (advance_eq s)
    exact ⟨hadvance, hadvance, hadvance⟩

end Sys2Proof.Proofs.RoundTrip
end

section
/-! The one answer of every instruction (40_step_cycle.md): the handlers without the range checks that a direct address
always passes. -/

namespace Sys2Proof.Proofs.Answer
open Sys2Proof Sys2Proof.Machine Sys2Proof.Proofs.LoadStore Sys2Proof.Proofs.Arithmetic Sys2Proof.Proofs.Control
  Sys2Proof.Proofs.StreamIo

/-- The state an instruction answers (`exec_eq_answer`).  The four instructions that can fault choose between two states,
every other one has one. -/
def answer (i : Instr) (s : State) : State :=
  match i with
  | .jns arg => jumpTo (directTarget arg) (setCell (directAddr arg).toNat s.pc s)
  | .load arg => advance (setAc (s.mem.read (directAddr arg).toNat) s)
  | .store arg => advance (setCell (directAddr arg).toNat s.ac s)
  | .add arg | .addi arg => advance (setAc (s.ac + s.mem.read (directAddr arg).toNat) s)
  | .sub arg => advance (setAc (s.ac - s.mem.read (directAddr arg).toNat) s)
  | .input _ =>
    match nextTwoBytes s with
    | some (b0, b1) => advance (setAc (wordOfBytes b0 b1) (consumeTwo s))
    | none => failInput s
  | .output _ =>
    if sinkAccepts s then advance (emitTwo (lowByte s.ac) (highByte s.ac) s) else failOutput (lowByte s.ac) s
  | .halt _ => haltRun s
  | .skipcond selector => jumpTo (if skipHolds selector s.ac then s.pc + 2#16 else s.pc + 1#16) s
  | .clear _ => advance (setAc 0x0000#16 s)
  | .jump arg => jumpTo (directTarget arg) s
  | .jumpi arg => jumpTo (s.mem.read (directAddr arg).toNat) s
  | .loadi arg =>
    if (s.mem.read (directAddr arg).toNat).toNat < 4096 then
      advance (setAc (s.mem.read (s.mem.read (directAddr arg).toNat).toNat) s)
    else raise (.addressOutOfRange 0xD#4 arg (s.mem.read (directAddr arg).toNat)) s
  | .storei arg =>
    if (s.mem.read (directAddr arg).toNat).toNat < 4096 then
      advance (setCell (s.mem.read (directAddr arg).toNat).toNat s.ac s)
    else raise (.addressOutOfRange 0xE#4 arg (s.mem.read (directAddr arg).toNat)) s

theorem exec_halt (arg : Arg) (s : State) : exec (.halt arg) s = .next (haltRun s) := rfl

theorem exec_eq_answer (i : Instr) (s : State) : exec i s = .next (answer i s) := by
  cases i with
  | jns arg => exact exec_jns arg s
  | load arg => exact exec_load arg s
  | store arg => exact exec_store arg s
  | add arg => rw [exec_add, answer, advance_setAc, addWord_eq]
  | sub arg => rw [exec_sub, answer, advance_setAc, subWord_eq]
  | addi arg => rw [exec_addi, answer, advance_setAc, addWord_eq]
  | halt arg => exact exec_halt arg s
  | skipcond selector => exact exec_skipcond selector s
  | clear arg => exact exec_clear arg s
  | jump arg => exact exec_jump arg s
  | jumpi arg => exact exec_jumpi arg s
  | input arg =>
    unfold exec execInput answer
    cases nextTwoBytes s <;> rfl
  | output arg =>
    rw [exec, execOutput, answer]
    split <;> rfl
  | loadi arg =>
    rw [exec_loadi, answer]
    split
    next hin => rw [withOperand_inRange _ _ _ _ hin]
    next hout => rw [withOperand_outOfRange _ _ _ _ (Nat.not_lt.1 hout)]
  | storei arg =>
    rw [exec_storei, answer]
    split
    next hin => rw [withStore_inRange _ _ _ _ _ hin]
    next hout => rw [withStore_outOfRange _ _ _ _ _ (Nat.not_lt.1 hout)]

theorem eq_answer_of_exec {i : Instr} {s t : State} (h : exec i s = .next t) : t = answer i s :=
  Host.Outcome.next.inj (h.symm.trans (exec_eq_answer i s))

/-- Settles O13. -/
theorem everyInstructionAnswersNextState : Obligations.EveryInstructionAnswersNextState :=
  fun i s => ⟨answer i s, exec_eq_answer i s⟩

/-! ### The next PC (R76) -/

/-- Settles O14: the completed forms keep the status of the running machine and write PC as the table says, and HALT and
the fault entries leave PC and the status RUNNING behind. -/
theorem nextPcTable : Obligations.NextPcTable := by
  intro i s t hrun hexec
  obtain rfl := eq_answer_of_exec hexec
  cases i with
  | jns | jump | jumpi | load | store | add | sub | addi | clear =>
    exact ⟨fun hstop => absurd hrun hstop, fun _ => rfl⟩
  | skipcond selector =>
    exact ⟨fun hstop => absurd hrun hstop, fun _ => by simp only [answer, jumpTo_pc, skipHolds_iff]⟩
  | halt => exact ⟨fun _ => rfl, fun hstill => absurd hstill (by simp [answer])⟩
  | loadi | storei | output | input =>
    simp only [answer]
    split
    · exact ⟨fun hstop => absurd hrun hstop, fun _ => rfl⟩
    · exact ⟨fun _ => rfl, fun hstill => absurd hstill (by simp)⟩

/-! ### What an instruction can write -/

theorem eq_of_read_write_ne {m : Memory} {a b : Nat} {v : Word} (h : (m.write a v).read b ≠ m.read b) : b = a :=
  by_contra fun hb => h (Memory.read_write_other m v hb)

/-- Settles O19: every answer has the old Memory or the one of a single write, whose address is the named cell. -/
theorem memoryChangesOnlyByStores : Obligations.MemoryChangesOnlyByStores := by
  intro i s t b hexec hne
  obtain rfl := eq_answer_of_exec hexec
  cases i with
  | store arg => exact .inl ⟨arg, rfl, eq_of_read_write_ne hne⟩
  | jns arg => exact .inr (.inl ⟨arg, rfl, eq_of_read_write_ne hne⟩)
  | storei arg =>
    simp only [answer] at hne
    split at hne
    · exact .inr (.inr ⟨arg, rfl, eq_of_read_write_ne hne⟩)
    · exact absurd rfl hne
  | loadi | output | input =>
    simp only [answer] at hne
    split at hne <;> exact absurd rfl hne
  | load | add | sub | addi | clear | jump | jumpi | skipcond | halt => exact absurd rfl hne

/-- Settles O46: the other eight answer a state with the old AC. -/
theorem acChangesOnlyByItsWriters : Obligations.AcChangesOnlyByItsWriters := by
  intro i s t hexec hne
  obtain rfl := eq_answer_of_exec hexec
  cases i with
  | load | loadi | add | sub | addi | clear | input => simp [Instr.tag]
  | storei | output =>
    simp only [answer] at hne
    split at hne <;> exact absurd rfl hne
  | store | jns | jump | jumpi | skipcond | halt => exact absurd rfl hne

theorem answer_parameters (i : Instr) (s : State) :
    (answer i s).prog = s.prog ∧ (answer i s).input = s.input ∧ (answer i s).outOk = s.outOk := by
  cases i with
  | loadi | storei | output | input =>
    simp only [answer]
    split <;> exact ⟨rfl, rfl, rfl⟩
  | load | store | jns | add | sub | addi | clear | jump | jumpi | skipcond | halt => exact ⟨rfl, rfl, rfl⟩

end Sys2Proof.Proofs.Answer
end

section
/-! The table of faults and the cause codes (60_exceptions.md section 1). -/

namespace Sys2Proof.Proofs.FaultTable
open Sys2Proof Sys2Proof.Machine Sys2Proof.Proofs.Answer

/-- Settles O50: the four instructions that can fault are taken on each side of their condition, and every other one
answers with the status RUNNING it found, or with HALTED. -/
theorem whichInstructionRaisesWhichFault : Obligations.WhichInstructionRaisesWhichFault := by
  intro i s t hrun hexec
  obtain rfl := eq_answer_of_exec hexec
  cases i with
  | load | store | jns | add | sub | addi | clear | jump | jumpi | skipcond | halt => simp [answer, hrun]
  | loadi arg | storei arg =>
    by_cases hptr : (s.mem.read (directAddr arg).toNat).toNat < 4096
    · simp [answer, hrun, hptr, -directAddr_toNat]
    · simp [answer, hptr, Nat.not_lt.1 hptr, -directAddr_toNat]
  | output arg => cases hsink : sinkAccepts s <;> simp [answer, hrun, hsink]
  | input arg =>
    cases hbytes : nextTwoBytes s with
    | none => simp [answer, hbytes, nextTwoBytes_eq_none.1 hbytes]
    | some bytes => simp [answer, hrun, hbytes, (nextTwoBytes_eq_some.1 hbytes).2]

/-- Settles O51: the code (R148) looks at the kind of the record alone. -/
theorem causeCodesOfFaults : Obligations.CauseCodesOfFaults :=
  ⟨rfl, fun _ _ _ => rfl, fun _ => rfl, fun _ => rfl⟩

end Sys2Proof.Proofs.FaultTable
end

section
/-! The cycle of a running machine and the runs it makes (40_step_cycle.md). -/

namespace Sys2Proof.Proofs.Cycle
open Sys2Proof Sys2Proof.Machine Sys2Proof.Proofs.Encoding Sys2Proof.Proofs.StepCycle Sys2Proof.Proofs.Control
  Sys2Proof.Proofs.Answer

/-! ### The step by what it fetches -/

/-- A running machine runs the instruction that its fetched word decodes to (R70, R75). -/
theorem step_of_decode {s : State} {w : Word} {i : Instr} (hrun : s.status = .running) (hfetch : fetch s = some w)
    (hdecode : decode w = .ok i) : step s = exec i s := by
  rw [step_of_fetch hrun hfetch, runWord, hdecode]

/-- A running machine raises UnknownOpcode at a word with the unmapped opcode (R142). -/
theorem step_of_unmapped {s : State} {w : Word} (hrun : s.status = .running) (hfetch : fetch s = some w)
    (hop : opcodeField w = 0xF#4) : step s = .next (raise (.unknownOpcode 0xF#4) s) := by
  rw [step_of_fetch hrun hfetch, runWord_of_decode_error s ((decode_eq_unknownOpcode_iff w).2 hop)]

/-- No step is defined in a terminal status (R71). -/
theorem step_of_not_running {s : State} (h : s.status ≠ .running) : step s = .fault (.noStepDefined s.status) := by
  unfold step
  cases hs : s.status with
  | running => exact absurd hs h
  | halted | ended | faulted => rfl

/-- Settles O8: `fetch` is the lookup in the program store at PC. -/
theorem stepRunsDecodedInstruction : Obligations.StepRunsDecodedInstruction :=
  fun _ _ _ hrun hfetch hdecode => step_of_decode hrun hfetch hdecode

theorem decode_of_decodeTableWord {w : Nat} {i : Instr} (h : decodeTableWord 16 w = some i) :
    decode (BitVec.ofNat 16 (w % 2 ^ 16)) = .ok i := by
  rw [decodeTableWord, if_pos (le_refl 16)] at h
  cases hdecode : decode (BitVec.ofNat 16 (w % 2 ^ 16)) with
  | ok j => rw [hdecode] at h; exact congrArg Except.ok (Option.some.inj h)
  | error e => rw [hdecode] at h; cases h

/-- Settles O9: the placed word is the one fetched, and placing it sets the machine running. -/
theorem placedWordIsNextInstruction : Obligations.PlacedWordIsNextInstruction :=
  fun s _ _ htable => step_of_decode rfl (placeWord_getElem? s.prog _ _) (decode_of_decodeTableWord htable)

/-- Settles O11: a run from a terminal status has no first step, so it is the run of no steps. -/
theorem terminalStatusHasNoStep : Obligations.TerminalStatusHasNoStep := by
  intro s hterminal
  have hnone := step_of_not_running hterminal
  refine ⟨hnone, fun k t hreach => ?_⟩
  cases k with
  | zero => exact reaches_zero.1 hreach
  | succ k =>
    obtain ⟨u, hstep, -⟩ := reaches_succ.1 hreach
    cases hnone.symm.trans hstep

/-- Settles O12, by what the fetch finds: no word, a word with a mapped opcode or one with the unmapped opcode. -/
theorem stepEndsOrRunsOneInstruction : Obligations.StepEndsOrRunsOneInstruction := by
  intro s hrun
  cases hfetch : fetch s with
  | none => exact ⟨endRun s, step_of_fetch_none hrun hfetch, .inl ⟨fetch_eq_none.1 hfetch, rfl⟩⟩
  | some w =>
    by_cases hop : opcodeField w = 0xF#4
    · exact ⟨_, step_of_unmapped hrun hfetch hop, .inr (.inr ⟨w, hfetch, hop, rfl⟩)⟩
    · obtain ⟨i, hdecode⟩ := exists_decode_of_opcodeField_ne hop
      have hexec := exec_eq_answer i s
      exact ⟨answer i s, (step_of_decode hrun hfetch hdecode).trans hexec, .inr (.inl ⟨w, i, hfetch, hdecode, hexec⟩)⟩

/-- Settles O40: the row of the opcode map, and the status HALTED, which is terminal. -/
theorem haltStopsWithoutAdvance : Obligations.HaltStopsWithoutAdvance := by
  intro arg s
  refine ⟨decode_match_or 0x7#4 arg rfl, exec_halt arg s, fun t hexec => ?_⟩
  obtain rfl := eq_answer_of_exec hexec
  exact step_of_not_running (s := haltRun s) (by simp)

/-- Settles O37: such a step answers the state it starts from, and so does a run of any length. -/
theorem jumpToOwnOffsetNeverEnds : Obligations.JumpToOwnOffsetNeverEnds := by
  intro s arg hrun hpc hword k
  have hdecode : decode (0xA000#16 ||| arg.setWidth 16) = .ok (.jump arg) := decode_match_or 0xA#4 arg rfl
  have hstep : step s = .next s := by
    rw [step_of_decode hrun hword hdecode, exec_jump, jumpTo, directTarget, ← hpc]
  induction k with
  | zero => exact reaches_zero.2 rfl
  | succ k ih => exact reaches_succ.2 ⟨s, hstep, ih⟩

/-- Settles O20: the ends of a run and the faults change neither of the three, and no instruction does. -/
theorem programAndStreamsParametersConstant : Obligations.ProgramAndStreamsParametersConstant := by
  intro s t hstep
  have hparams : t.prog = s.prog ∧ t.input = s.input ∧ t.outOk = s.outOk := by
    obtain ⟨-, ⟨-, rfl⟩ | ⟨w, i, -, -, hexec⟩ | ⟨w, -, -, rfl⟩⟩ := step_next_cases hstep
    · exact ⟨rfl, rfl, rfl⟩
    · exact eq_answer_of_exec hexec ▸ answer_parameters i s
    · exact ⟨rfl, rfl, rfl⟩
  obtain ⟨hprog, hinput, houtOk⟩ := hparams
  exact ⟨hprog, hinput, houtOk, fun p => by rw [fetch, fetch, hprog]⟩

/-! ### Two machines at the same word -/

/-- Two machines in the same status that fetch the same word take corresponding steps, for every correspondence that ending
the run, raising UnknownOpcode and the instructions keep. -/
theorem step_corresponds {R : State → State → Prop} {s s' t : State} (hstatus : s'.status = s.status)
    (hfetch : fetch s' = fetch s) (hend : R (endRun s) (endRun s')) (hraise : ∀ f, R (raise f s) (raise f s'))
    (hexec : ∀ i, R (answer i s) (answer i s')) (hstep : step s = .next t) : ∃ t', step s' = .next t' ∧ R t t' := by
  obtain ⟨hrun, ⟨hf, rfl⟩ | ⟨w, i, hf, hdecode, hi⟩ | ⟨w, hf, hop, rfl⟩⟩ := step_next_cases hstep
  all_goals rw [← hfetch] at hf; rw [← hstatus] at hrun
  · exact ⟨endRun s', step_of_fetch_none hrun hf, hend⟩
  · obtain rfl := eq_answer_of_exec hi
    exact ⟨answer i s', (step_of_decode hrun hf hdecode).trans (exec_eq_answer i s'), hexec i⟩
  · exact ⟨_, step_of_unmapped hrun hf hop, hraise _⟩

end Sys2Proof.Proofs.Cycle
end

section
/-! What an instruction and a step can read (10_state.md): two machines that differ elsewhere only answer alike. -/

namespace Sys2Proof.Proofs.Noninterference
open Sys2Proof Sys2Proof.Machine Sys2Proof.Proofs.Answer Sys2Proof.Proofs.Cycle

/-! ### PC and AC -/

/-- Settles O48: without JNS, PC is read to write PC alone, so the two answers differ there alone. -/
theorem pcReadAsDataOnlyByJns : Obligations.PcReadAsDataOnlyByJns := by
  intro i s t p htag hexec
  obtain rfl := eq_answer_of_exec hexec
  refine ⟨answer i { s with pc := p }, exec_eq_answer i _, ?_⟩
  cases i with
  | jns => exact absurd rfl htag
  | loadi | storei =>
    simp only [answer]
    split <;> rfl
  | output arg =>
    have hsink : sinkAccepts { s with pc := p } = sinkAccepts s := rfl
    simp only [answer, hsink]
    split <;> rfl
  | input arg =>
    have hbytes : nextTwoBytes { s with pc := p } = nextTwoBytes s := rfl
    simp only [answer, hbytes]
    split <;> rfl
  | load | store | add | sub | addi | clear | jump | jumpi | skipcond | halt => rfl

/-- Settles O47: the writers among the other eight write a value in which AC has no part, the rest leave AC alone. -/
theorem acReadOnlyByItsReaders : Obligations.AcReadOnlyByItsReaders := by
  intro i s t v htag hexec
  obtain rfl := eq_answer_of_exec hexec
  refine ⟨answer i { s with ac := v }, exec_eq_answer i _, ?_⟩
  cases i with
  | store | storei | output | skipcond | add | sub | addi => simp [Instr.tag] at htag
  | load | clear => exact ⟨rfl, .inl rfl⟩
  | jns | jump | jumpi | halt => exact ⟨rfl, .inr ⟨rfl, rfl⟩⟩
  | loadi arg =>
    simp only [answer]
    split
    · exact ⟨rfl, .inl rfl⟩
    · exact ⟨rfl, .inr ⟨rfl, rfl⟩⟩
  | input arg =>
    have hbytes : nextTwoBytes { s with ac := v } = nextTwoBytes s := rfl
    simp only [answer, hbytes]
    split
    · exact ⟨rfl, .inl rfl⟩
    · exact ⟨rfl, .inr ⟨rfl, rfl⟩⟩

/-! ### The output record -/

theorem sinkAccepts_of_no_answers {s : State} (h : s.outOk = []) : sinkAccepts s = true := by
  rw [sinkAccepts, h, List.getD_nil]

theorem answer_of_out_replaced (i : Instr) {s : State} (o : List Byte) (hsink : s.outOk = []) :
    { answer i { s with out := o } with out := (answer i s).out } = answer i s := by
  cases i with
  | output arg =>
    simp only [answer, sinkAccepts_of_no_answers hsink, sinkAccepts_of_no_answers (s := { s with out := o }) hsink]
    rfl
  | input arg =>
    have hbytes : nextTwoBytes { s with out := o } = nextTwoBytes s := rfl
    simp only [answer, hbytes]
    split <;> rfl
  | loadi | storei =>
    simp only [answer]
    split <;> rfl
  | load | store | jns | add | sub | addi | clear | jump | jumpi | skipcond | halt => rfl

/-- Settles O45: a sink without answers accepts whatever was written, and nothing else looks at out. -/
theorem outputRecordIsNeverRead : Obligations.OutputRecordIsNeverRead :=
  fun s _ o hsink hstep =>
    step_corresponds (s := s) (s' := { s with out := o }) (R := fun t t' => { t' with out := t.out } = t) rfl rfl rfl
      (fun _ => rfl) (fun i => answer_of_out_replaced i o hsink) hstep

/-! ### The input sequence -/

/-- The two positions of a sequence that a step may read (R17). -/
def AgreesAtCursor (s : State) (other : InStream) : Prop :=
  other.byteAt? s.inPos = s.input.byteAt? s.inPos ∧ other.byteAt? (s.inPos + 1) = s.input.byteAt? (s.inPos + 1)

theorem nextTwoBytes_of_agreesAtCursor {s : State} {other : InStream} (h : AgreesAtCursor s other) :
    nextTwoBytes { s with input := other } = nextTwoBytes s := by
  obtain ⟨h0, h1⟩ := h
  simp only [nextTwoBytes, h0, h1]

theorem failInput_of_agreesAtCursor {s : State} {other : InStream} (h : AgreesAtCursor s other) :
    failInput { s with input := other } = { failInput s with input := other } := by
  obtain ⟨h0, -⟩ := h
  simp only [failInput, failedInputCount, h0, raise]

theorem answer_of_agreesAtCursor (i : Instr) {s : State} {other : InStream} (h : AgreesAtCursor s other) :
    answer i { s with input := other } = { answer i s with input := other } := by
  cases i with
  | input arg =>
    simp only [answer, nextTwoBytes_of_agreesAtCursor h]
    split
    · rfl
    · exact failInput_of_agreesAtCursor h
  | output arg =>
    have hsink : sinkAccepts { s with input := other } = sinkAccepts s := rfl
    simp only [answer, hsink]
    split <;> rfl
  | loadi | storei =>
    simp only [answer]
    split <;> rfl
  | load | store | jns | add | sub | addi | clear | jump | jumpi | skipcond | halt => rfl

theorem step_of_agreesAtCursor {s t : State} {other : InStream} (h : AgreesAtCursor s other) (hstep : step s = .next t) :
    step { s with input := other } = .next { t with input := other } := by
  obtain ⟨t', hstep', rfl⟩ := step_corresponds (s := s) (s' := { s with input := other })
    (R := fun t t' => t' = { t with input := other }) rfl rfl rfl (fun _ => rfl)
    (fun i => answer_of_agreesAtCursor i h) hstep
  exact hstep'

theorem answer_inPos_bounds (i : Instr) (s : State) :
    s.inPos ≤ (answer i s).inPos ∧ (answer i s).inPos ≤ s.inPos + 2 := by
  cases i with
  | input arg =>
    simp only [answer]
    split
    next => simp
    next => obtain hcount | ⟨hcount, -⟩ := failedInputCount_cases s <;> simp [hcount]
  | output | loadi | storei =>
    simp only [answer]
    split <;> simp
  | load | store | jns | add | sub | addi | clear | jump | jumpi | skipcond | halt => simp [answer]

/-- A step consumes at most two bytes (R17). -/
theorem step_inPos_bounds {s t : State} (hstep : step s = .next t) : s.inPos ≤ t.inPos ∧ t.inPos ≤ s.inPos + 2 := by
  obtain ⟨-, ⟨-, rfl⟩ | ⟨w, i, -, -, hexec⟩ | ⟨w, -, -, rfl⟩⟩ := step_next_cases hstep
  · simp
  · exact eq_answer_of_exec hexec ▸ answer_inPos_bounds i s
  · simp

/-- Settles O59: one step by the lemmas above, and a run by induction on its length: the step before the others consumes at
most two bytes, so the rest of the run stays within the positions agreed on. -/
theorem inputReadOnlyAtItsCursor : Obligations.InputReadOnlyAtItsCursor := by
  refine ⟨fun s t other h0 h1 hstep => step_of_agreesAtCursor ⟨h0, h1⟩ hstep, fun k => ?run⟩
  case run =>
    induction k with
    | zero =>
      intro s t other _ hreach
      rw [reaches_zero.1 hreach]
      exact reaches_zero.2 rfl
    | succ k ih =>
      intro s t other hagree hreach
      obtain ⟨u, hstep, hrest⟩ := reaches_succ.1 hreach
      obtain ⟨hlo, hhi⟩ := step_inPos_bounds hstep
      obtain ⟨-, hinput, -⟩ := programAndStreamsParametersConstant s u hstep
      have hcursor : AgreesAtCursor s other := ⟨hagree _ (by omega) (by omega), hagree _ (by omega) (by omega)⟩
      refine reaches_succ.2 ⟨{ u with input := other }, step_of_agreesAtCursor hcursor hstep, ih u t other ?_ hrest⟩
      intro p hp hlt
      rw [hinput]
      exact hagree p (by omega) (by omega)

end Sys2Proof.Proofs.Noninterference
end

section
/-! The invariant of the machine: every step keeps it (10_state.md, 60_exceptions.md). -/

namespace Sys2Proof.Proofs.Invariant
open Sys2Proof Sys2Proof.Machine

/-! ### The four kinds of step -/

/-- No fault is recorded while the machine runs (R20). -/
theorem fault_eq_none_of_running {s : State} (hinv : Inv s) (hrun : s.status = .running) : s.fault = none :=
  not_not.1 fun hfault => Status.noConfusion (hrun.symm.trans (hinv.faulted.2 hfault))

/-- A completed step leaves the machine running and without a fault, and of the program and the source nothing changes: what
remains are the clauses on Memory, `in_pos` and `out`. -/
theorem inv_of_completed {s t : State} (hinv : Inv s) (hrun : s.status = .running) (hstatus : t.status = s.status)
    (hfault : t.fault = s.fault) (hprog : t.prog = s.prog) (hmemory : t.mem.wf = true)
    (hinput : t.input.endless = false → t.inPos ≤ t.input.bytes.length) (houtput : t.out.length % 2 = 0) : Inv t := by
  have hrun' : t.status = .running := hstatus.trans hrun
  have hnone : t.fault = none := hfault.trans (fault_eq_none_of_running hinv hrun)
  exact
    { memory := hmemory
      program := hprog ▸ hinv.program
      faulted := by simp [hrun', hnone]
      explained := by simp [hnone]
      halted := by simp [hrun']
      ended := by simp [hrun']
      input := hinput
      output := fun _ => houtput }

/-- A fault entry needs its record explained; `out` is free in FAULTED (R18). -/
theorem inv_of_faulted {s t : State} (hinv : Inv s) {f : FaultRecord} (hstatus : t.status = .faulted)
    (hfault : t.fault = some f) (hprog : t.prog = s.prog) (hmem : t.mem = s.mem)
    (hinput : t.input.endless = false → t.inPos ≤ t.input.bytes.length) (hexplained : FaultExplained t f) : Inv t where
  memory := hmem ▸ hinv.memory
  program := hprog ▸ hinv.program
  faulted := by simp [hstatus, hfault]
  explained := by
    intro g hg
    obtain rfl : f = g := Option.some.inj (hfault.symm.trans hg)
    exact hexplained
  halted := by simp [hstatus]
  ended := by simp [hstatus]
  input := hinput
  output := fun hne => absurd hstatus hne

theorem inv_raise {s : State} (hinv : Inv s) {f : FaultRecord} (hexplained : FaultExplained (raise f s) f) :
    Inv (raise f s) :=
  inv_of_faulted hinv rfl rfl rfl rfl hinv.input hexplained

theorem inv_haltRun {s : State} (hinv : Inv s) (hrun : s.status = .running)
    (hword : ∃ arg : Arg, fetch s = some (0x7#4 ++ arg)) : Inv (haltRun s) where
  memory := hinv.memory
  program := hinv.program
  faulted := by simp [fault_eq_none_of_running hinv hrun]
  explained := hinv.explained
  halted := fun _ => hword
  ended := by simp
  input := hinv.input
  output := fun _ => hinv.output (by simp [hrun])

theorem inv_endRun {s : State} (hinv : Inv s) (hrun : s.status = .running) (hend : s.prog.length ≤ s.pc.toNat) :
    Inv (endRun s) where
  memory := hinv.memory
  program := hinv.program
  faulted := by simp [fault_eq_none_of_running hinv hrun]
  explained := hinv.explained
  halted := by simp
  ended := fun _ => hend
  input := hinv.input
  output := fun _ => hinv.output (by simp [hrun])

/-! ### The input cursor (R17) -/

theorem lt_length_of_byteAt?_isSome {i : InStream} {p : Nat} (hfinite : i.endless = false)
    (h : (i.byteAt? p).isSome) : p < i.bytes.length :=
  ((i.byteAt?_isSome_iff p).1 h).resolve_right (by simp [hfinite])

theorem consumeTwo_inPos_le {s : State} {b0 b1 : Byte} (hbytes : nextTwoBytes s = some (b0, b1))
    (hfinite : s.input.endless = false) : (consumeTwo s).inPos ≤ s.input.bytes.length :=
  lt_length_of_byteAt?_isSome hfinite (by rw [(nextTwoBytes_eq_some.1 hbytes).2]; rfl)

/-- A failed INPUT consumes no byte that was not there. -/
theorem failInput_inPos_le {s : State} (hle : s.inPos ≤ s.input.bytes.length) (hfinite : s.input.endless = false) :
    (failInput s).inPos ≤ s.input.bytes.length := by
  rw [failInput_inPos]
  obtain hcount | ⟨hcount, hbyte⟩ := failedInputCount_cases s
  · omega
  · have := lt_length_of_byteAt?_isSome hfinite hbyte
    omega

/-- The position after the cursor has no byte before a failed INPUT, so none at any later cursor. -/
theorem byteAt?_after_failInput {s : State} (hnone : nextTwoBytes s = none) :
    (failInput s).input.byteAt? ((failInput s).inPos + 1) = none := by
  rw [← Option.not_isSome_iff_eq_none]
  intro hsome
  have := s.input.byteAt?_isSome_of_le (p := s.inPos + 1) (by rw [failInput_inPos]; omega) hsome
  rw [nextTwoBytes_eq_none.1 hnone] at this
  exact Bool.false_ne_true this

/-! ### The obligation -/

/-- An instruction keeps the invariant when it runs at its own word. -/
theorem inv_of_exec {i : Instr} {s t : State} (hinv : Inv s) (hrun : s.status = .running)
    (hword : fetch s = some (i.opcode ++ i.arg)) (hexec : exec i s = .next t) : Inv t := by
  have hout : s.out.length % 2 = 0 := hinv.output (by simp [hrun])
  obtain ⟨v, rfl⟩ | ⟨a, v, ha, rfl⟩ | ⟨a, v, target, ha, rfl⟩ | ⟨target, rfl⟩ | ⟨arg, rfl, rfl⟩ |
    ⟨arg, b0, b1, -, hbytes, rfl⟩ | ⟨arg, rfl, hnone, rfl⟩ | ⟨arg, -, -, rfl⟩ | ⟨arg, rfl, -, rfl⟩ |
    ⟨arg, ptr, rfl, hptr, hrange, rfl⟩ | ⟨arg, ptr, rfl, hptr, hrange, rfl⟩ := exec_next_cases hexec
  · exact inv_of_completed hinv hrun rfl rfl rfl hinv.memory hinv.input hout
  · exact inv_of_completed hinv hrun rfl rfl rfl (Memory.wf_write v ha hinv.memory) hinv.input hout
  · exact inv_of_completed hinv hrun rfl rfl rfl (Memory.wf_write v ha hinv.memory) hinv.input hout
  · exact inv_of_completed hinv hrun rfl rfl rfl hinv.memory hinv.input hout
  · exact inv_haltRun hinv hrun ⟨arg, hword⟩
  · exact inv_of_completed hinv hrun rfl rfl rfl hinv.memory (consumeTwo_inPos_le hbytes) hout
  · exact inv_of_faulted hinv rfl rfl rfl rfl (fun hfinite => failInput_inPos_le (hinv.input hfinite) hfinite)
        ⟨⟨arg, hword⟩, byteAt?_after_failInput hnone⟩
  · exact inv_of_completed hinv hrun rfl rfl rfl hinv.memory hinv.input (by simp [hout])
  · exact inv_of_faulted hinv rfl rfl rfl rfl hinv.input ⟨arg, hword⟩
  · exact inv_raise hinv ⟨.inl rfl, hword, hptr, hrange⟩
  · exact inv_raise hinv ⟨.inr rfl, hword, hptr, hrange⟩

/-- Settles O56: a step ends the run at the end of the program, runs an instruction at its own word, or raises
UnknownOpcode at a word with that opcode. -/
theorem stepKeepsInvariant : Obligations.StepKeepsInvariant := by
  intro s t hinv hstep
  obtain ⟨hrun, ⟨hfetch, rfl⟩ | ⟨w, i, hfetch, hdecode, hexec⟩ | ⟨w, hfetch, hop, rfl⟩⟩ := step_next_cases hstep
  · exact inv_endRun hinv hrun (fetch_eq_none.1 hfetch)
  · exact inv_of_exec hinv hrun (eq_append_of_decode hdecode ▸ hfetch) hexec
  · exact inv_raise hinv ⟨rfl, argField w, hfetch.trans (by rw [← hop, append_fields])⟩

end Sys2Proof.Proofs.Invariant
end

section
/-! Reset and the runs from it (70_reset_and_hazards.md). -/

namespace Sys2Proof.Proofs.Reset
open Sys2Proof Sys2Proof.Machine Sys2Proof.Proofs.Invariant

/-! ### The parameters that reset accepts and refuses (R4, log 11) -/

theorem programWellFormed_iff (prog : List Word) : programWellFormed prog = true ↔ prog.length ≤ 65535 :=
  decide_eq_true_iff

theorem imageWellFormed_iff (image : List Word) : imageWellFormed image = true ↔ image.length = 4096 :=
  decide_eq_true_iff

/-- The state that reset answers for parameters in their ranges. -/
def launched (p : Parameters) : State :=
  { State.reset with
    prog := p.prog, mem := Memory.imageFrom 0 (p.memInit.getD []), input := p.input, outOk := p.outOk, draws := p.draws }

theorem launch_of_legal {p : Parameters} (hprog : p.prog.length ≤ 65535)
    (himage : ∀ image, p.memInit = some image → image.length = 4096) : State.launch p = .next (launched p) := by
  rw [State.launch, if_pos ((programWellFormed_iff _).2 hprog), launched]
  cases hinit : p.memInit with
  | none => rfl
  | some image => exact if_pos ((imageWellFormed_iff image).2 (himage image hinit))

theorem launch_of_long_program {p : Parameters} (h : 65535 < p.prog.length) :
    State.launch p = .refused (.programTooLong p.prog.length) := by
  rw [State.launch, if_neg (mt (programWellFormed_iff _).1 (Nat.not_le.2 h))]

theorem launch_of_wrong_image {p : Parameters} {image : List Word} (hprog : p.prog.length ≤ 65535)
    (hinit : p.memInit = some image) (hlength : image.length ≠ 4096) :
    State.launch p = .refused (.memoryImageWrongLength image.length) := by
  rw [State.launch, if_pos ((programWellFormed_iff _).2 hprog), hinit]
  exact if_neg (mt (imageWellFormed_iff image).1 hlength)

/-- Reset answers a state for parameters in their ranges only. -/
theorem launch_next {p : Parameters} {s : State} (h : State.launch p = .next s) :
    p.prog.length ≤ 65535 ∧ (∀ image, p.memInit = some image → image.length = 4096) ∧ s = launched p := by
  have hprog : p.prog.length ≤ 65535 := by
    by_contra hlong
    cases (launch_of_long_program (Nat.not_le.1 hlong)).symm.trans h
  have himage : ∀ image, p.memInit = some image → image.length = 4096 := by
    intro image hinit
    by_contra hlength
    cases (launch_of_wrong_image hprog hinit hlength).symm.trans h
  exact ⟨hprog, himage, Host.Outcome.next.inj (h.symm.trans (launch_of_legal hprog himage))⟩

/-- Settles O54, by the two checks of reset in their order. -/
theorem launchRefusesParametersOutOfRange : Obligations.LaunchRefusesParametersOutOfRange :=
  ⟨fun _ hlong => launch_of_long_program hlong,
    fun _ _ hprog hinit hlength => launch_of_wrong_image hprog hinit hlength⟩

/-! ### The values after reset (R22, R170) -/

/-- Settles O52, by the fields of the reset state; its Memory lists no cell. -/
theorem resetStateValues : Obligations.ResetStateValues :=
  ⟨rfl, rfl, Memory.read_nil, rfl, rfl, rfl, rfl⟩

/-- Settles O53: the launched state has the parameters by definition, and its Memory is the image from address 0 on. -/
theorem launchBindsParameters : Obligations.LaunchBindsParameters := by
  intro p hprog himage
  refine ⟨launched p, launch_of_legal hprog himage, rfl, rfl, rfl, fun hinit a => ?noImage,
    fun image hinit a ha => ?image, rfl, rfl, rfl, rfl, rfl, rfl⟩
  case noImage => rw [launched, hinit]; exact Memory.read_nil a
  case image =>
    have hread := Memory.read_imageFrom image 0 a
    rw [Nat.zero_add] at hread
    have hlt : a < image.length := by rw [himage image hinit]; exact ha
    rw [launched, hinit, Option.getD_some, hread, List.getD_eq_getElem _ _ hlt, List.getElem?_eq_getElem hlt]

/-! ### The invariant at reset and along every run -/

theorem inv_launched {p : Parameters} (hprog : p.prog.length ≤ 65535)
    (himage : ∀ image, p.memInit = some image → image.length = 4096) : Inv (launched p) where
  memory := by
    refine Memory.wf_imageFrom _ 0 ?_
    cases hinit : p.memInit with
    | none => simp
    | some image => simp [himage image hinit]
  program := hprog
  faulted := by simp [launched, State.reset]
  explained := by simp [launched, State.reset]
  halted := by simp [launched, State.reset]
  ended := by simp [launched, State.reset]
  input := fun _ => Nat.zero_le _
  output := fun _ => rfl

/-- The parameters of `State.reset`: no program, no image, the empty finite input and a sink that always accepts. -/
def defaultParameters : Parameters :=
  { prog := [], memInit := none, input := { bytes := [], tail := .ends }, outOk := [], draws := 0 }

/-- Settles O55: the reset state is the one launched with the default parameters. -/
theorem resetMeetsInvariant : Obligations.ResetMeetsInvariant :=
  inv_launched (p := defaultParameters) (Nat.zero_le _) (fun _ h => nomatch h)

/-- Settles O57: the launched state meets the invariant, and every step keeps it. -/
theorem launchedRunsKeepInvariant : Obligations.LaunchedRunsKeepInvariant := by
  intro p s t k hlaunch hreach
  obtain ⟨hprog, himage, rfl⟩ := launch_next hlaunch
  exact reaches_induction stepKeepsInvariant (inv_launched hprog himage) hreach

end Sys2Proof.Proofs.Reset
end

section
/-! The canonical form of Memory and the range of a pointer (10_state.md section 3, 20_memory.md section 2). -/

namespace Sys2Proof.Proofs.Canonical
open Sys2Proof Sys2Proof.Machine

/-- Below its first entry a canonical Memory lists no cell. -/
theorem read_of_lt_entries {m : Memory} {a : Nat} (h : ∀ c ∈ m, a < c.1) : m.read a = Memory.unlisted := by
  induction m with
  | nil => rfl
  | cons c rest ih =>
    obtain ⟨b, w⟩ := c
    have hab : a < b := h (b, w) List.mem_cons_self
    rw [Memory.read, if_neg hab.ne]
    exact ih fun c hc => h c (List.mem_cons_of_mem _ hc)

theorem read_cons_same (a : Nat) (v : Word) (rest : Memory) : Memory.read ((a, v) :: rest) a = v :=
  if_pos rfl

/-- A canonical Memory whose first entry is at `a` reads differently from one that lists nothing up to `a`. -/
theorem read_ne_of_first_entry {a : Nat} {v : Word} {rest m : Memory} (hv : v ≠ Memory.unlisted)
    (hm : ∀ c ∈ m, a < c.1) : Memory.read ((a, v) :: rest) a ≠ m.read a := by
  rw [read_cons_same, read_of_lt_entries hm]
  exact hv

/-- The entries of a canonical Memory lie above any address below the first. -/
theorem lt_entries_of_lt_first {a b : Nat} {v : Word} {rest : Memory} (hrest : ∀ c ∈ rest, b < c.1) (hab : a < b) :
    ∀ c ∈ (b, v) :: rest, a < c.1 :=
  List.forall_mem_cons.2 ⟨hab, fun c hc => hab.trans (hrest c hc)⟩

/-- The canonical form is unique: the first entries agree, since the lower of two different addresses would be listed in
one Memory alone, and so do the rests. -/
theorem eq_of_read_eq {m n : Memory} (hm : m.wf = true) (hn : n.wf = true) (h : ∀ a, m.read a = n.read a) : m = n := by
  induction m generalizing n with
  | nil =>
    cases n with
    | nil => rfl
    | cons d rest =>
      obtain ⟨b, w⟩ := d
      obtain ⟨-, hw, -, -⟩ := (Memory.wf_cons b w rest).1 hn
      exact absurd (h b).symm (read_ne_of_first_entry hw (by simp))
  | cons c restM ih =>
    obtain ⟨a, v⟩ := c
    obtain ⟨-, hv, hltM, hrestM⟩ := (Memory.wf_cons a v restM).1 hm
    cases n with
    | nil => exact absurd (h a) (read_ne_of_first_entry hv (by simp))
    | cons d restN =>
      obtain ⟨b, w⟩ := d
      obtain ⟨-, hw, hltN, hrestN⟩ := (Memory.wf_cons b w restN).1 hn
      obtain hab | rfl | hba := lt_trichotomy a b
      · exact absurd (h a) (read_ne_of_first_entry hv (lt_entries_of_lt_first hltN hab))
      · have hvw : v = w := by simpa [read_cons_same] using h a
        have hrest : ∀ x, Memory.read restM x = Memory.read restN x := by
          intro x
          by_cases hx : x = a
          · rw [hx, read_of_lt_entries hltM, read_of_lt_entries hltN]
          · simpa [Memory.read, hx] using h x
        rw [hvw, ih hrestM hrestN hrest]
      · exact absurd (h b).symm (read_ne_of_first_entry hw (lt_entries_of_lt_first hltM hba))

/-- Settles O17: writes and images keep the canonical form, which is unique. -/
theorem memoryWriteKeepsCanonicalForm : Obligations.MemoryWriteKeepsCanonicalForm :=
  ⟨fun _ _ v ha hm => Memory.wf_write v ha hm, fun _ _ hm hn h => eq_of_read_eq hm hn h,
    fun image hlength => Memory.wf_imageFrom image 0 (by omega)⟩

/-- Settles O18: the signed reading is the unsigned one below 32768 and negative from there on, so both checks draw their
line at 4096. -/
theorem pointerVerdictSignedUnsigned : Obligations.PointerVerdictSignedUnsigned := by
  refine ⟨fun ptr => ?pointer, fun arg => ⟨directAddr_toNat arg, inRange_directAddr arg⟩⟩
  case pointer =>
    have := ptr.isLt
    rw [inRange_iff, BitVec.toInt_eq_toNat_cond]
    split <;> omega

end Sys2Proof.Proofs.Canonical
end

section
/-! Two instructions in a row, and the selectors of SKIPCOND (42_arithmetic.md, 43_skip_jump.md, 44_io_halt.md). -/

namespace Sys2Proof.Proofs.Sequences
open Sys2Proof Sys2Proof.Machine Sys2Proof.Proofs.Arithmetic Sys2Proof.Proofs.Control Sys2Proof.Proofs.StreamIo

/-- Settles O30: addition of Words is undone by subtraction, and the Memory read by SUB is the one read by ADD. -/
theorem subUndoesAdd : Obligations.SubUndoesAdd := by
  intro arg s
  refine ⟨_, exec_add arg s, ?_⟩
  rw [exec_sub, addWord_eq, subWord_eq, BitVec.add_sub_cancel, BitVec.add_assoc]
  rfl

/-- Settles O36: JUMPI reads back the cell that JNS wrote. -/
theorem jumpiAfterJnsReturnsToJns : Obligations.JumpiAfterJnsReturnsToJns :=
  fun arg s => ⟨_, _, exec_jns arg s, exec_jumpi arg _, Memory.read_write_same s.mem _ s.pc, rfl⟩

/-- Settles O32: AC is negative, zero or positive, and each sign has one selector. -/
theorem exactlyOneSelectorSkips : Obligations.ExactlyOneSelectorSkips := by
  intro ac
  simp only [skipHolds_iff]
  obtain hneg | hzero | hpos := lt_trichotomy ac.toInt 0
  · exact ⟨0x000#12, by simp, fun other => by simp [hneg, hneg.ne, hneg.le.not_gt]⟩
  · exact ⟨0x400#12, by simp, fun other => by simp [hzero]⟩
  · exact ⟨0x800#12, by simp, fun other => by simp [hpos, hpos.ne', hpos.le.not_gt]⟩

/-- Settles O42: the Word that INPUT makes of two bytes has them as its low and its high byte, and INPUT leaves out as it
was, so the sink is asked the same. -/
theorem outputAfterInputEchoesBytes : Obligations.OutputAfterInputEchoesBytes := by
  intro a b s b0 b1 hb0 hb1 haccept
  refine ⟨_, _, exec_input_of_two_bytes a (nextTwoBytes_eq_some.2 ⟨hb0, hb1⟩), exec_output_of_accepted b haccept,
    ?bytes, rfl, rfl, rfl⟩
  case bytes => simp

/-- Settles O43: the accepted OUTPUT makes out longer by two, and half of that is one. -/
theorem sinkAnswersOutputsInOrder : Obligations.SinkAnswersOutputsInOrder := by
  intro s arg
  refine ⟨List.getD_eq_getElem?_getD .., fun haccept => ⟨_, exec_output_of_accepted arg haccept, ?number, rfl⟩⟩
  case number =>
    simp only [List.length_append, List.length_cons, List.length_nil]
    omega

end Sys2Proof.Proofs.Sequences
end

section
/-! The input sources (10_state.md section 3). -/

namespace Sys2Proof.Proofs.InputSource
open Sys2Proof Sys2Proof.Machine Sys2Proof.Proofs.StreamIo

/-- Settles O44: a finite source has its list, and an endless one the two bytes that INPUT asks for. -/
theorem inputStreamBytes : Obligations.InputStreamBytes := by
  refine ⟨fun i p hfinite => i.byteAt?_finite hfinite p, fun s arg hendless => ?endless⟩
  case endless =>
    obtain ⟨b0, hb0⟩ := Option.isSome_iff_exists.1 (s.input.byteAt?_endless hendless s.inPos)
    obtain ⟨b1, hb1⟩ := Option.isSome_iff_exists.1 (s.input.byteAt?_endless hendless (s.inPos + 1))
    exact ⟨_, exec_input_of_two_bytes arg (nextTwoBytes_eq_some.2 ⟨hb0, hb1⟩), rfl, rfl, rfl⟩

/-- A source that lists the first `n` bytes of an infinite sequence and goes on with the unknown source number 0. -/
def listing (f : Nat → Byte) (n : Nat) : InStream :=
  { bytes := List.ofFn fun k : Fin n => f k, tail := .unknown 0 }

theorem listing_byteAt? (f : Nat → Byte) {n p : Nat} (h : p < n) : (listing f n).byteAt? p = some (f p) := by
  rw [InStream.byteAt?_listed _ (by simpa [listing] using h)]
  simp [listing, h]

/-- Past its listed bytes a repeating source has the repeated byte at the position modulo their number. -/
theorem repeats_byteAt? (bytes : List Byte) (first : Byte) (rest : List Byte) (q : Nat) :
    (InStream.mk bytes (.repeats first rest)).byteAt? (bytes.length + q) = (first :: rest)[q % (rest.length + 1)]? :=
  InStream.byteAt?_tail ⟨bytes, .repeats first rest⟩ q

/-- Settles O58: any length of a sequence can be listed, and the round of a repeating source is its position modulo the
number of repeated bytes. -/
theorem everyInputSequenceCanBeGiven : Obligations.EveryInputSequenceCanBeGiven := by
  refine ⟨fun f n => ⟨listing f n, rfl, fun p hp => listing_byteAt? f hp⟩,
    fun bytes first rest => ⟨fun p hp => ?listed, fun q hq => ?firstRound, fun p hp => ?laterRounds⟩⟩
  case listed => exact InStream.byteAt?_listed ⟨bytes, .repeats first rest⟩ hp
  case firstRound => rw [repeats_byteAt?, Nat.mod_eq_of_lt hq]
  case laterRounds =>
    obtain ⟨q, rfl⟩ := Nat.exists_eq_add_of_le hp
    rw [Nat.add_assoc, repeats_byteAt?, repeats_byteAt?, Nat.add_mod_right]

end Sys2Proof.Proofs.InputSource
end
